-- ==== Sys2Proof/Word.lean ====
section
/-! DEFINITION. The bit-vector types of the block (00_scope.md R6) and the status names of a response
(60_exceptions.md R141). -/

namespace Sys2Proof

/-- One byte of the source and of `RBYTE` (R6, `BYTE_W = 8`). -/
abbrev Byte := BitVec 8

/-- The accumulator, the operand of `CLZ` and every result (R6, `ACC_W = RES_W = CLZ_WIDTH = 64`). -/
abbrev Word := BitVec 64

/-- The command word (R6, `CMD_W = 10`; R60). -/
abbrev CmdWord := BitVec 10

/-- The count field of a command and the register `REM` (R6, `N_W = 7`; R26). -/
abbrev Count := BitVec 7

/-- The operation code field of a command (R60). -/
abbrev OpCode := BitVec 3

/-- The register `RLEN` (R6, `RLEN_W = 4`; R21). -/
abbrev ResidueLen := BitVec 4

/-- The four statuses of a response (R141). -/
inductive Status where
  /-- `OK`: the operation completed. -/
  | ok
  /-- `ERR_COUNT`: the count is outside the operation's documented range (R143). -/
  | errCount
  /-- `ERR_ILLEGAL`: reserved opcode, or a count field that must be zero and is not (R142). -/
  | errIllegal
  /-- `ERR_SOURCE`: a fetch made by the operation failed (R144). -/
  | errSource
  deriving DecidableEq, Repr, Inhabited

end Sys2Proof
end

