-- ==== Sys2Proof/Config.lean ====
section
/-! DEFINITION. The parameters of the block (00_scope.md R6) and the free values: what the spec leaves
unspecified, as constants without a body, so that nothing can be proved of them. Each is applied to the
counter `drawn` of State, so that two draws are unrelated. -/

namespace Sys2Proof.Config

/-- `UMAX` (R6): the largest legal count of `READ_UNSIGNED`; the smallest is 0. -/
def UMAX : Nat := 64

/-- `SMIN` (R6): the smallest legal count of `READ_SIGNED`. -/
def SMIN : Nat := 1

/-- `SMAX` (R6): the largest legal count of `READ_SIGNED`. -/
def SMAX : Nat := 32

/-- `SFRAME_W` (R6): the width of the sign-extension frame. -/
def SFRAME_W : Nat := 32

/-- `rsp_data` of a response whose status is not `OK` (30_encoding.md R64, U6). Log 6. -/
opaque freeRspData : Nat → Word

/-- `rsp_status` while no response is offered (30_encoding.md R67). Log 5. -/
opaque freeRspStatus : Nat → Status

/-- `RBYTE` after a reset edge (10_state.md R29). Log 5. -/
opaque freeRbyte : Nat → Byte

/-- `ACC` where no read is in flight (R26, R29). Log 5. -/
opaque freeAcc : Nat → Word

/-- `REM` where no read is in flight (R26, R29). Log 5. -/
opaque freeRem : Nat → Count

/-- The latched command word where no command is in flight (R26, R29). Log 5. -/
opaque freeCmdWord : Nat → CmdWord

/-- The latched command operand where no command is in flight (R26, R29). Log 5. -/
opaque freeCmdOperand : Nat → Word

end Sys2Proof.Config
end

