-- ==== Sys2Proof/Syntax.lean ====
section
/-! DEFINITION. The six commands (00_scope.md R4, 30_encoding.md R62), one constructor per row of
spec/opcode_table.json. -/

namespace Sys2Proof

/-- A command. The count `n` of the two reads is the 7-bit field of the command word, at any of its 128
values: out-of-range counts are commands too, answered with `ERR_COUNT` (R61, R143). The 64-bit operand
of `CLZ` is no part of the command word: it travels beside it and is latched with it (R60, R61). -/
inductive Instr where
  /-- `AT_END` (R80). -/
  | atEnd
  /-- `READ_UNSIGNED n` (R90). -/
  | readUnsigned (n : Count)
  /-- `READ_BYTE` (R91). -/
  | readByte
  /-- `READ_SIGNED n` (R110). -/
  | readSigned (n : Count)
  /-- `ALIGN` (R120). -/
  | align
  /-- `CLZ` (R130). -/
  | clz
  deriving DecidableEq, Repr

end Sys2Proof
end

