-- ==== Sys2Proof/WellFormed.lean ====
section
/-! DEFINITION. Which commands are legal: the class "legal" of 30_encoding.md R63. A command that is not
well-formed still has a meaning (it is answered with `ERR_COUNT`). -/

namespace Sys2Proof

/-- The count ranges of R62: 0 to 64 for `READ_UNSIGNED`, 1 to 32 for `READ_SIGNED`. -/
def Instr.wf : Instr → Bool
  | .atEnd => true
  | .readUnsigned n => n.toNat ≤ Config.UMAX
  | .readByte => true
  | .readSigned n => Config.SMIN ≤ n.toNat && n.toNat ≤ Config.SMAX
  | .align => true
  | .clz => true

end Sys2Proof
end

