-- ==== Sys2Proof/Decode.lean ====
section
/-! DEFINITION. Decoding and encoding of command words (30_encoding.md R60 to R63, R65). -/

namespace Sys2Proof

/-- Why a command word names no command (R142). -/
inductive Illegal where
  /-- `op` is 6 or 7. -/
  | reservedOpcode
  /-- The count field is not zero on an operation that takes no count. -/
  | countNotZero
  deriving DecidableEq, Repr

/-- What a command word decodes to. -/
inductive Decoded where
  | command (i : Instr)
  | illegal (why : Illegal)
  deriving DecidableEq, Repr

/-- The three classes of R63. -/
inductive CmdClass where
  | legal
  | countOutOfRange
  | illegal (why : Illegal)
  deriving DecidableEq, Repr

/-- `op = cmd_word[9:7]` (R60). -/
def opField (w : CmdWord) : OpCode := w.extractLsb' 7 3

/-- `n = cmd_word[6:0]` (R60, R61). -/
def countField (w : CmdWord) : Count := w.extractLsb' 0 7

/-- A command that takes no count: its count field must be 0 (R62, R63). -/
def withoutCount (i : Instr) (n : Count) : Decoded :=
  if n = 0 then .command i else .illegal .countNotZero

/-- Decoding: total, a function of the command word alone (R62, R63, R65). -/
def decode (w : CmdWord) : Decoded :=
  match (opField w).toNat with
  | 0 => withoutCount .atEnd (countField w)
  | 1 => .command (.readUnsigned (countField w))
  | 2 => withoutCount .readByte (countField w)
  | 3 => .command (.readSigned (countField w))
  | 4 => withoutCount .align (countField w)
  | 5 => withoutCount .clz (countField w)
  | _ => .illegal .reservedOpcode

/-- The class of a command word (R63). -/
def classify (w : CmdWord) : CmdClass :=
  match decode w with
  | .command i => if i.wf then .legal else .countOutOfRange
  | .illegal why => .illegal why

/-- The operation code of a command (R62). -/
def Instr.opCode : Instr → OpCode
  | .atEnd => 0
  | .readUnsigned _ => 1
  | .readByte => 2
  | .readSigned _ => 3
  | .align => 4
  | .clz => 5

/-- The count field of a command (R62). -/
def Instr.countBits : Instr → Count
  | .atEnd => 0
  | .readUnsigned n => n
  | .readByte => 0
  | .readSigned n => n
  | .align => 0
  | .clz => 0

/-- The command word of a command: `{op, n}`, that is `op * 128 + n` (R60). -/
def encode (i : Instr) : CmdWord := i.opCode ++ i.countBits

/-- The row's "match" in spec/opcode_table.json. -/
def Instr.tableMatch : Instr → CmdWord
  | .atEnd => 0x000
  | .readUnsigned _ => 0x080
  | .readByte => 0x100
  | .readSigned _ => 0x180
  | .align => 0x200
  | .clz => 0x280

/-- The row's "mask" in spec/opcode_table.json. -/
def Instr.tableMask : Instr → CmdWord
  | .atEnd => 0x3FF
  | .readUnsigned _ => 0x380
  | .readByte => 0x3FF
  | .readSigned _ => 0x380
  | .align => 0x3FF
  | .clz => 0x3FF

/-- How many bits a command takes from the stream when it succeeds as a read, if it is a read (R90, R91,
R110). -/
def Instr.readCount : Instr → Option Count
  | .atEnd => none
  | .readUnsigned n => some n
  | .readByte => some 8
  | .readSigned n => some n
  | .align => none
  | .clz => none

/-- The count of the read that a command word names, if it names one. -/
def readCountOf (w : CmdWord) : Option Count :=
  match decode w with
  | .command i => i.readCount
  | .illegal _ => none

/-- The instruction the decoder reads from a word numbered as spec/opcode_table.json numbers it. The
command word has 10 bits, carried on ten wires, not in bytes: a word with a bit above bit 9 set is no
command word. Log 11. -/
def decodeTableWord (nbits w : Nat) : Option Instr :=
  if w % 2 ^ nbits < 1024 then
    match decode (BitVec.ofNat 10 (w % 2 ^ nbits)) with
    | .command i => some i
    | .illegal _ => none
  else none

/-- A line of a listing (30_encoding.md R69): the mnemonic, then the count in decimal or, for `CLZ`, the
operand `v` in hexadecimal. -/
def Instr.listing (i : Instr) (v : Word) : String :=
  match i with
  | .atEnd => "AT_END"
  | .readUnsigned n => "READ_UNSIGNED " ++ toString n.toNat
  | .readByte => "READ_BYTE"
  | .readSigned n => "READ_SIGNED " ++ toString n.toNat
  | .align => "ALIGN"
  | .clz => "CLZ 0x" ++ String.ofList (Nat.toDigits 16 v.toNat)

end Sys2Proof
end

