-- ==== Sys2Proof/Machine/State.lean ====
section
/-! DEFINITION. The state of the block as plain data: the registers of 10_state.md R20, R21, R25, R26, the
response registers of 30_encoding.md R67, the ghosts of 10_state.md R28 and 20_memory.md R46, and the
samples of the input ports of 10_state.md R30 at the coming clock edges. -/

namespace Sys2Proof.Machine

/-- `PHASE` (10_state.md R25). -/
inductive Phase where
  /-- No command in flight; `cmd_ready = 1`. -/
  | idle
  /-- A command has been accepted and is executing. -/
  | busy
  /-- The operation has ended and its response is offered; `rsp_valid = 1`. -/
  | resp
  deriving DecidableEq, Repr

/-- The input ports of 10_state.md R30 as sampled on one rising edge of `clk`. -/
structure PortIn where
  rst : Bool
  cmdValid : Bool
  cmdWord : CmdWord
  cmdOperand : Word
  rspReady : Bool
  srcAck : Bool
  srcData : Byte
  srcFail : Bool
  srcExhausted : Bool
  deriving DecidableEq, Repr

/-- An edge at which nothing happens at the ports: every input is 0. Log 2. -/
def PortIn.quiet : PortIn :=
  { rst := false, cmdValid := false, cmdWord := 0, cmdOperand := 0, rspReady := false, srcAck := false,
    srcData := 0, srcFail := false, srcExhausted := false }

/-- The state of the machine. -/
structure State where
  /-- `RBYTE` (R20). -/
  rbyte : Byte
  /-- `RLEN` (R21). -/
  rlen : ResidueLen
  /-- `PHASE` (R25). -/
  phase : Phase
  /-- `ACC` (R26). -/
  acc : Word
  /-- `REM` (R26). -/
  rem : Count
  /-- The latched command word (R26, R66). -/
  cmdWord : CmdWord
  /-- The latched command operand (R26, R61, R66). -/
  cmdOperand : Word
  /-- The register behind `rsp_status` (R64, R67). -/
  rspStatus : Status
  /-- The register behind `rsp_data` (R64, R67). -/
  rspData : Word
  /-- The level of `src_exhausted` sampled with the command in flight (R42). Log 3. -/
  srcExhausted : Bool
  /-- Ghost: the bytes the source has handed over since reset, oldest first (R46). Log 9. -/
  stream : List Byte
  /-- Ghost: how many bytes the source has counted as taken, over all resets (R172). Log 9. -/
  srcTaken : Nat
  /-- Ghost: a reset edge has been applied since power-up (R170, U14). Log 8. -/
  wasReset : Bool
  /-- How many times a free value has been drawn. Log 5. -/
  drawn : Nat
  /-- The input ports at the coming rising edges, next edge first. Log 2. -/
  inputs : List PortIn
  deriving DecidableEq, Repr

/-- The reasons for which the machine could stop with a fault: there are none. The block has no trap; a
command that fails ends with a status on its response (60_exceptions.md R140, R146), which is a next
state. Log 13. -/
inductive Fault where
  deriving DecidableEq, Repr

/-- The reasons for which the model gives a step no meaning. -/
inductive Refusal where
  /-- Raised by an arm of `exec` whose instruction has no meaning yet (none in this model); safe. -/
  | notModelled (mnemonic : String)
  /-- Raised by `step` when the host issues a command before the first reset edge after power-up: "commands
  before reset are `refuse`" (93_implementation_defined.md U14; 70_reset_and_hazards.md R170); safe. Log 8. -/
  | commandBeforeReset
  deriving DecidableEq, Repr

/-- The outcome of a step of this machine. -/
abbrev Result := Host.Outcome State Fault Refusal

/-- The state right after reset (10_state.md R29): `RLEN = 0`, `PHASE = IDLE`, `NFETCH = 0`. The registers
that R29 leaves unspecified hold the values of log 4; no input is scheduled (log 2, log 10). -/
def State.reset : State :=
  { rbyte := 0, rlen := 0, phase := .idle, acc := 0, rem := 0, cmdWord := 0, cmdOperand := 0,
    rspStatus := .ok, rspData := 0, srcExhausted := false, stream := [], srcTaken := 0, wasReset := true,
    drawn := 0, inputs := [] }

end Sys2Proof.Machine
end

