-- ==== Sys2Proof/Machine/Flags.lean ====
section
/-! DEFINITION. What is computed from State and not stored: the block has no flag register (10_state.md
R24), but the predicates EMPTY and PARTIAL, the ghosts NFETCH and POS (R28), the codes of the statuses
(60_exceptions.md R141) and the output ports (10_state.md R30). -/

namespace Sys2Proof.Machine

/-- The code of a status on `rsp_status` (R141). -/
def statusCode : Status → BitVec 2
  | .ok => 0
  | .errCount => 1
  | .errIllegal => 2
  | .errSource => 3

/-- State `EMPTY` (R24). -/
def State.isEmpty (s : State) : Bool := s.rlen.toNat = 0

/-- State `PARTIAL` (R24): 1 to 8 residual bits. -/
def State.isPartial (s : State) : Bool := 1 ≤ s.rlen.toNat && s.rlen.toNat ≤ 8

/-- The ghost `NFETCH` (R28): successful fetches since reset. -/
def State.nfetch (s : State) : Nat := s.stream.length

/-- The ghost `POS = 8 * NFETCH - RLEN` (R28), which has no width. -/
def State.pos (s : State) : Int := 8 * (s.nfetch : Int) - (s.rlen.toNat : Int)

/-- The value of the valid residue `RBYTE[r-1:0]` (R20); 0 for the empty residue. -/
def State.residue (s : State) : Nat := s.rbyte.toNat % 2 ^ s.rlen.toNat

/-- Output port `cmd_ready` (R30): 1 exactly in phase `IDLE`. -/
def State.cmdReady (s : State) : Bool := s.phase = .idle

/-- Output port `rsp_valid` (R30): 1 exactly in phase `RESP`. -/
def State.rspValid (s : State) : Bool := s.phase = .resp

/-- Output port `rsp_status` (R30, R141). -/
def State.rspStatusPort (s : State) : BitVec 2 := statusCode s.rspStatus

/-- Output port `rsp_data` (R30). -/
def State.rspDataPort (s : State) : Word := s.rspData

/-- Output port `src_req` (R30, 20_memory.md R44): in phase `BUSY` of a read, where step (a) needs a
byte. -/
def State.srcReq (s : State) : Bool :=
  s.phase = .busy && (readCountOf s.cmdWord).isSome && s.rlen.toNat = 0 && 0 < s.rem.toNat

end Sys2Proof.Machine
end

