-- ==== Sys2Proof/Machine/Operands.lean ====
section
/-! DEFINITION. The values commands compute: the mask and the chunk of the extraction loop (00_scope.md R7,
41_read_unsigned.md R90), the results of the three reads (R90, R91, R110), the leading-zero count (R130). -/

namespace Sys2Proof.Machine

/-- `mask(k) = 2^k - 1` (R7), as a `w`-bit vector. -/
def lowMask (w k : Nat) : BitVec w := BitVec.ofNat w (2 ^ k - 1)

/-- Step (b) of R90, `RBYTE[RLEN-1 : RLEN-k]`, in the equivalent form R90 gives:
`(RBYTE >> (RLEN - k)) & mask(k)`. -/
def topChunk (rbyte : Byte) (r k : Nat) : Byte := (rbyte >>> (r - k)) &&& lowMask 8 k

/-- The result of `READ_UNSIGNED` (R90). -/
def unsignedResult (acc : Word) : Word := acc

/-- The result of `READ_BYTE` (R91): `zext_64(v[7:0])`. -/
def byteResult (acc : Word) : Word := (acc.setWidth 8).setWidth 64

/-- The result of `READ_SIGNED n` (R110): the sign-extension through the 32-bit frame. -/
def signedResult (n : Count) (acc : Word) : Word :=
  let t : BitVec 32 := acc.setWidth 32
  let s : Nat := Config.SFRAME_W - n.toNat
  ((t <<< s).sshiftRight s).signExtend 64

/-- The scan of R130: how many of the bits `i-1`, `i-2`, ... of `v` are zero before the first set one. -/
def leadingZerosBelow {W : Nat} (v : BitVec W) : Nat → Nat
  | 0 => 0
  | i + 1 => if v.getLsbD i then 0 else leadingZerosBelow v i + 1

/-- How many leading bits of a `W`-bit value are zero (R130, R131). -/
def leadingZeros {W : Nat} (v : BitVec W) : Nat := leadingZerosBelow v W

/-- `AT_END` (R80): the boolean in bit 0. -/
def atEndResult (rlen : ResidueLen) (exhausted : Bool) : Word :=
  if rlen = 0 ∧ exhausted = true then 1 else 0

/-- `ALIGN` (R120): `RLEN - (RLEN mod 8)`. -/
def alignedLen (rlen : ResidueLen) : ResidueLen := rlen - rlen % 8

/-- The check of `READ_UNSIGNED` (R90, R143). -/
def unsignedCountOutOfRange (n : Count) : Bool := n.toNat > Config.UMAX

/-- The check of `READ_SIGNED` (R110, R143). -/
def signedCountOutOfRange (n : Count) : Bool := n.toNat < Config.SMIN || n.toNat > Config.SMAX

end Sys2Proof.Machine
end

