-- ==== Sys2Proof/Machine/Source.lean ====
section
/-! DEFINITION. The byte source seen from the core: how the samples of the input ports at the coming edges
answer a fetch (20_memory.md R41, R44), and the answers to several fetches in a row. -/

namespace Sys2Proof.Machine

/-- The two outcomes of `SrcFetch()` (R41). -/
inductive SrcReply where
  | byte (b : Byte)
  | fail
  deriving DecidableEq, Repr

/-- How a request that is held from now on is answered. -/
inductive Awaited where
  /-- The source answers at some edge; `rest` are the edges after it. -/
  | reply (r : SrcReply) (rest : List PortIn)
  /-- The source does not answer before the next reset edge, or before the last scheduled edge. -/
  | silent (rest : List PortIn)
  deriving DecidableEq, Repr

/-- The outcome of the edge that completes a fetch (R44): `Fail` if `src_fail = 1`, else `Byte src_data`. -/
def PortIn.srcReply (e : PortIn) : SrcReply := if e.srcFail then .fail else .byte e.srcData

/-- The core holds `src_req = 1` until an edge with `src_ack = 1` (R44); a reset edge comes first in every
phase (70_reset_and_hazards.md R170), so the wait ends before it. -/
def awaitReply : List PortIn → Awaited
  | [] => .silent []
  | e :: es =>
    if e.rst then .silent (e :: es)
    else if e.srcAck then .reply e.srcReply es
    else awaitReply es

/-- The bytes of `k` fetches in a row, all of them successful, and the edges left after the last. -/
def suppliedBytes : Nat → List PortIn → Option (List Byte × List PortIn)
  | 0, es => some ([], es)
  | k + 1, es =>
    match awaitReply es with
    | .reply (.byte b) rest => (suppliedBytes k rest).map (fun p => (b :: p.1, p.2))
    | .reply .fail _ => none
    | .silent _ => none

/-- The source answers `k` fetches in a row, each with a byte or with a failure. -/
def answersRequests : Nat → List PortIn → Bool
  | 0, _ => true
  | k + 1, es =>
    match awaitReply es with
    | .reply _ rest => answersRequests k rest
    | .silent _ => false

/-- `ceil(m / 8)`: how many fetches bring `m` bits (41_read_unsigned.md R95). -/
def fetchesFor (m : Nat) : Nat := (m + 7) / 8

/-- The number whose binary digits are those of `v` followed by the bytes, first byte highest
(41_read_unsigned.md R94: the string `T`; 20_memory.md R45). -/
def spanValue (v : Nat) (bs : List Byte) : Nat := bs.foldl (fun t b => t * 256 + b.toNat) v

/-- The bits of a byte in the order of delivery, bit 7 first (20_memory.md R45). -/
def byteBits (b : Byte) : List Bool := (List.range 8).map (fun i => b.getLsbD (7 - i))

/-- The source's bit string `S` of the bytes handed over (20_memory.md R46). -/
def bitString (bs : List Byte) : List Bool := bs.flatMap byteBits

/-- The number whose binary digits are the given bits, most significant first (20_memory.md R46). -/
def bitsValue (bits : List Bool) : Nat := bits.foldl (fun t b => t * 2 + b.toNat) 0

end Sys2Proof.Machine
end

