-- ==== Sys2Proof/Machine/Ops.lean ====
section
/-! DEFINITION. The operations the commands and the interface share: ending an operation with a result or
with an error (60_exceptions.md R140), the fetch and the extraction loop (41_read_unsigned.md R90), and the
transitions of the interface: acceptance (30_encoding.md R66), delivery (R67), reset (70_reset_and_hazards.md
R170 to R172). -/

namespace Sys2Proof.Machine

/-- `return v` (R140): phase `RESP`, status `OK`, result `v`. -/
def respond (v : Word) (s : State) : State :=
  { s with phase := .resp, rspStatus := .ok, rspData := v }

/-- `raise E` (R140): phase `RESP`, the status of the error, `rsp_data` unspecified (R64; log 6). State
already written stays written, and nothing else is saved (R140, R146). -/
def raise (e : Status) (s : State) : State :=
  { s with phase := .resp, rspStatus := e, rspData := Config.freeRspData s.drawn, drawn := s.drawn + 1 }

/-- How a part of a read ends. -/
inductive Progress where
  /-- It went through. -/
  | go (s : State)
  /-- A fetch returned `Fail` (R98). -/
  | failed (s : State)
  /-- The source has not answered (R180). -/
  | waiting (s : State)
  deriving DecidableEq, Repr

/-- The successful end of a fetch (R41, R90 step (a), R48): `RBYTE <- b; RLEN <- 8`. -/
def takeByte (b : Byte) (es : List PortIn) (s : State) : State :=
  { s with rbyte := b, rlen := 8, stream := s.stream ++ [b], srcTaken := s.srcTaken + 1, inputs := es }

/-- The edges up to the answer, or to the end of the wait, have passed. -/
def setInputs (es : List PortIn) (s : State) : State := { s with inputs := es }

/-- `SrcFetch()` (R41, R44). -/
def srcFetch (s : State) : Progress :=
  match awaitReply s.inputs with
  | .reply (.byte b) es => .go (takeByte b es s)
  | .reply .fail es => .failed (setInputs es s)
  | .silent es => .waiting (setInputs es s)

/-- Step (a) of R90. -/
def refill (s : State) : Progress := if s.rlen = 0 then srcFetch s else .go s

/-- `k = min(RLEN, REM)` (R90 step (b)). -/
def chunkSize (s : State) : Nat := min s.rlen.toNat s.rem.toNat

/-- Steps (b) to (e) of R90 with chunk size `k`. -/
def takeBits (k : Nat) (s : State) : State :=
  { s with
    acc := (s.acc <<< k) ||| (topChunk s.rbyte s.rlen.toNat k).setWidth 64
    rlen := s.rlen - BitVec.ofNat 4 k
    rbyte := s.rbyte &&& lowMask 8 (s.rlen - BitVec.ofNat 4 k).toNat
    rem := s.rem - BitVec.ofNat 7 k }

/-- Steps (b) to (e) of R90. -/
def takeChunk (s : State) : State := takeBits (chunkSize s) s

/-- The loop of R90. Every iteration takes at least one bit (R92), so that `REM` iterations suffice: the
first argument is a bound on the iterations, and a caller gives it `REM`. -/
def readLoop : Nat → State → Progress
  | 0, s => .go s
  | fuel + 1, s =>
    if s.rem = 0 then .go s
    else
      match refill s with
      | .go s1 => readLoop fuel (takeChunk s1)
      | .failed s1 => .failed s1
      | .waiting s1 => .waiting s1

/-- The initialisation of a read (R26, R90): `ACC <- 0; REM <- n`, in phase `BUSY` (R25). -/
def beginRead (n : Count) (s : State) : State := { s with phase := .busy, acc := 0, rem := n }

/-- The end of a read: the result, or `ERR_SOURCE` (R98, R144); or the read is not at its end and the core
stays in phase `BUSY` with the request held (R44, R180). -/
def endRead (result : Word → Word) : Progress → State
  | .go s => respond (result s.acc) s
  | .failed s => raise .errSource s
  | .waiting s => s

/-- The body of `READ_UNSIGNED n` (R90) with the result a read makes of `ACC`. -/
def readBody (result : Word → Word) (n : Count) (s : State) : State :=
  endRead result (readLoop n.toNat (beginRead n s))

/-- A read that waited for the source goes on where it stopped (R44, R180). -/
def continueRead (result : Word → Word) (s : State) : State :=
  endRead result (readLoop s.rem.toNat s)

/-- The ports at the next rising edge; where no edge is scheduled nothing happens at the ports. Log 2. -/
def State.edge (s : State) : PortIn := s.inputs.head?.getD .quiet

/-- The next rising edge has passed. -/
def pastEdge (s : State) : State := { s with inputs := s.inputs.tail }

/-- A command is accepted (R66): the core latches `cmd_word` and `cmd_operand` and enters phase `BUSY`. The
level of `src_exhausted` is sampled on the same edge. Log 3. -/
def accept (e : PortIn) (s : State) : State :=
  { s with phase := .busy, cmdWord := e.cmdWord, cmdOperand := e.cmdOperand, srcExhausted := e.srcExhausted }

/-- The response is delivered (R67): phase `IDLE`. What is held only while a command is in flight has no
specified value from here on (R26). Log 5. -/
def deliver (s : State) : State :=
  { s with
    phase := .idle
    acc := Config.freeAcc s.drawn
    rem := Config.freeRem s.drawn
    cmdWord := Config.freeCmdWord s.drawn
    cmdOperand := Config.freeCmdOperand s.drawn
    rspStatus := Config.freeRspStatus s.drawn
    rspData := Config.freeRspData s.drawn
    drawn := s.drawn + 1 }

/-- What the source counts as taken over a reset edge (R172): a fetch that completes on that very edge is
consumed, and the core discards the byte; a request that is not answered is withdrawn. -/
def takenAtReset (e : PortIn) (s : State) : Nat :=
  if s.srcReq && e.srcAck && !e.srcFail then s.srcTaken + 1 else s.srcTaken

/-- A reset edge (R170, R171, R29): `RLEN = 0`, `PHASE = IDLE`, the ghosts restart, the other registers have
no specified value (log 5). -/
def resetEdge (e : PortIn) (s : State) : State :=
  { s with
    rbyte := Config.freeRbyte s.drawn
    rlen := 0
    phase := .idle
    acc := Config.freeAcc s.drawn
    rem := Config.freeRem s.drawn
    cmdWord := Config.freeCmdWord s.drawn
    cmdOperand := Config.freeCmdOperand s.drawn
    rspStatus := Config.freeRspStatus s.drawn
    rspData := Config.freeRspData s.drawn
    stream := []
    srcTaken := takenAtReset e s
    wasReset := true
    drawn := s.drawn + 1 }

end Sys2Proof.Machine
end

