-- ==== Sys2Proof/Machine/Align.lean ====
section
/-! DEFINITION. The meaning of `ALIGN` (43_align.md R120). -/

namespace Sys2Proof.Machine

/-- `ALIGN` (R120): writes `RLEN` only; `RBYTE` keeps its bits; no fetch; the result is 0. -/
def execAlign (s : State) : Result := .next (respond 0 { s with rlen := alignedLen s.rlen })

end Sys2Proof.Machine
end

