-- ==== Sys2Proof/Machine/AtEnd.lean ====
section
/-! DEFINITION. The meaning of `AT_END` (40_at_end.md R80). -/

namespace Sys2Proof.Machine

/-- `AT_END` (R80): no state is written but the response; no fetch. -/
def execAtEnd (s : State) : Result := .next (respond (atEndResult s.rlen s.srcExhausted) s)

end Sys2Proof.Machine
end

