-- ==== Sys2Proof/Machine/Clz.lean ====
section
/-! DEFINITION. The meaning of `CLZ` (44_clz.md R130). -/

namespace Sys2Proof.Machine

/-- `CLZ` (R130) of the latched operand `cmd_operand` (30_encoding.md R61): no state is written but the
response. -/
def execClz (s : State) : Result := .next (respond (BitVec.ofNat 64 (leadingZeros s.cmdOperand)) s)

end Sys2Proof.Machine
end

