-- ==== Sys2Proof/Machine/Read.lean ====
section
/-! DEFINITION. The meanings of the reads (41_read_unsigned.md R90, R91; 42_read_signed.md R110). -/

namespace Sys2Proof.Machine

/-- `READ_UNSIGNED n` (R90). -/
def execReadUnsigned (n : Count) (s : State) : Result :=
  if unsignedCountOutOfRange n then .next (raise .errCount s) else .next (readBody unsignedResult n s)

/-- `READ_BYTE` (R91): the body of `READ_UNSIGNED` with count 8. -/
def execReadByte (s : State) : Result := .next (readBody byteResult 8 s)

/-- `READ_SIGNED n` (R110). -/
def execReadSigned (n : Count) (s : State) : Result :=
  if signedCountOutOfRange n then .next (raise .errCount s) else .next (readBody (signedResult n) n s)

end Sys2Proof.Machine
end

