-- ==== Sys2Proof/Machine/Dispatch.lean ====
section
/-! DEFINITION. Which meaning belongs to which command. -/

namespace Sys2Proof.Machine

def exec (i : Instr) (s : State) : Host.Outcome State Fault Refusal :=
  match i with
  | .atEnd => Sys2Proof.Machine.execAtEnd s
  | .readUnsigned n => Sys2Proof.Machine.execReadUnsigned n s
  | .readByte => Sys2Proof.Machine.execReadByte s
  | .readSigned n => Sys2Proof.Machine.execReadSigned n s
  | .align => Sys2Proof.Machine.execAlign s
  | .clz => Sys2Proof.Machine.execClz s

end Sys2Proof.Machine
end

