-- ==== Sys2Proof/Machine/Command.lean ====
section
/-! DEFINITION. What the core does with the latched command: run it from its start, or go on with it after
a wait for the source. -/

namespace Sys2Proof.Machine

/-- The latched command word is decoded and its operation runs; an illegal one is answered with
`ERR_ILLEGAL` before anything else happens (60_exceptions.md R142). -/
def runCommand (s : State) : Result :=
  match decode s.cmdWord with
  | .command i => exec i s
  | .illegal _ => .next (raise .errIllegal s)

/-- Phase `BUSY`: a read goes on where it waited (20_memory.md R44, 70_reset_and_hazards.md R180). Only a
read can wait; in any other case the operation runs (log 12). -/
def resumeCommand (s : State) : Result :=
  match decode s.cmdWord with
  | .command (.readUnsigned _) => .next (continueRead unsignedResult s)
  | .command .readByte => .next (continueRead byteResult s)
  | .command (.readSigned n) => .next (continueRead (signedResult n) s)
  | .command .atEnd => exec .atEnd s
  | .command .align => exec .align s
  | .command .clz => exec .clz s
  | .illegal _ => .next (raise .errIllegal s)

/-- A command is offered in phase `IDLE` on the edge `e` (30_encoding.md R66): it is accepted and its
operation begins. Before the first reset edge the host must not issue commands (70_reset_and_hazards.md
R170; log 8). -/
def acceptCommand (e : PortIn) (s : State) : Result :=
  if s.wasReset then runCommand (accept e s) else .refused .commandBeforeReset

/-- The edge on which the host offers the command word `w` with operand 0 and nothing else happens. -/
def offerEdge (w : CmdWord) : PortIn := { PortIn.quiet with cmdValid := true, cmdWord := w }

end Sys2Proof.Machine
end

