-- ==== Sys2Proof/Machine/Step.lean ====
section
/-! DEFINITION. One step: one event of the interface (log 1). -/

namespace Sys2Proof.Machine

/-- One step. A reset edge comes first in every phase (70_reset_and_hazards.md R170). In `IDLE` an offered
command is accepted and runs (30_encoding.md R66); in `BUSY` the read goes on (20_memory.md R44); in `RESP`
the response is delivered when the host is ready, and is held until then (30_encoding.md R67). -/
def step (s : State) : Host.Outcome State Fault Refusal :=
  if s.edge.rst then .next (resetEdge s.edge (pastEdge s))
  else
    match s.phase with
    | .idle => if s.edge.cmdValid then acceptCommand s.edge (pastEdge s) else .next (pastEdge s)
    | .busy => resumeCommand s
    | .resp => if s.edge.rspReady then .next (deliver (pastEdge s)) else .next (pastEdge s)

/-- The next edge offers the command whose word is `w` (in the first `nbits` bits, log 11), with operand 0,
to a core that has been reset and is in phase `IDLE` (log 10). -/
def State.withFetchWord (s : State) (nbits w : Nat) : State :=
  { s with
    phase := .idle
    wasReset := true
    inputs := offerEdge (BitVec.ofNat 10 (w % 2 ^ nbits)) :: s.inputs }

end Sys2Proof.Machine
end

