-- ==== Sys2Proof/Machine/Environment.lean ====
section
/-! DEFINITION. The list source of 20_memory.md R54 in closed loop with the core: one lawful byte source,
used by the spec's test vectors. The core itself works with any source (log 14). -/

namespace Sys2Proof.Machine

/-- `SrcFetch()` of the list source (R54): the head and the tail, or `Fail` and the empty list. -/
def listReply : List Byte → SrcReply × List Byte
  | [] => (.fail, [])
  | b :: bs => (.byte b, bs)

/-- `SrcExhausted()` of the list source (R54): exactly when the list is empty. -/
def listExhausted (bs : List Byte) : Bool := bs.isEmpty

/-- The edge on which a source gives an answer. -/
def replyEdge : SrcReply → PortIn
  | .byte b => { PortIn.quiet with srcAck := true, srcData := b }
  | .fail => { PortIn.quiet with srcAck := true, srcFail := true }

/-- The edge on which the host offers a command while the list source holds `bs`. -/
def listOffer (bs : List Byte) (w : CmdWord) (v : Word) : PortIn :=
  { offerEdge w with cmdOperand := v, srcExhausted := listExhausted bs }

/-- The list source answers up to `k` requests of the core, one step each. -/
def serveList : Nat → List Byte → State → State × List Byte
  | 0, bs, s => (s, bs)
  | k + 1, bs, s =>
    if s.srcReq then
      match step { s with inputs := [replyEdge (listReply bs).1] } with
      | .next s' => serveList k (listReply bs).2 s'
      | .fault _ => (s, bs)
      | .refused _ => (s, bs)
    else (s, bs)

/-- The host issues the command word `w` with operand `v` and the list source answers until the response is
offered: at most 8 fetches (70_reset_and_hazards.md R183). -/
def issueOverList (bs : List Byte) (w : CmdWord) (v : Word) (s : State) : State × List Byte :=
  match step { s with inputs := [listOffer bs w v] } with
  | .next s' => serveList 8 bs s'
  | .fault _ => (s, bs)
  | .refused _ => (s, bs)

end Sys2Proof.Machine
end

