-- ==== Sys2Proof/Safety.lean ====
section
/-! DEFINITION. What a safe run of the block is: the invariants of the spec as predicates of one state, the
relation "equal but for what is meaningless", and the words in which the statements speak of reads. -/

namespace Sys2Proof.Machine

/-- 10_state.md R22 and R23 at the boundary of a step: `RLEN` is 0 to 7, and the bits of `RBYTE` above the
valid residue are zero while there is a residue. -/
def ResidueInv (s : State) : Prop :=
  s.rlen.toNat ≤ 7 ∧ (1 ≤ s.rlen.toNat → s.rbyte.toNat < 2 ^ s.rlen.toNat)

/-- 10_state.md R20 over the ghost of 20_memory.md R46: the residue is the low-order end of the byte most
recently handed over. -/
def StreamInv (s : State) : Prop :=
  1 ≤ s.rlen.toNat →
    ∃ b, s.stream.getLast? = some b ∧ s.rbyte.toNat = b.toNat % 2 ^ s.rlen.toNat

/-- Phase `BUSY` between two steps is a legal read that waits for the source (20_memory.md R44), part of
whose bits are in `ACC` (41_read_unsigned.md R93). -/
def BusyInv (s : State) : Prop :=
  s.phase = .busy →
    ∃ i n, decode s.cmdWord = .command i ∧ i.wf = true ∧ i.readCount = some n ∧ s.rlen.toNat = 0 ∧
      1 ≤ s.rem.toNat ∧ s.rem.toNat ≤ n.toNat ∧ s.acc.toNat < 2 ^ (n.toNat - s.rem.toNat)

/-- 30_encoding.md R64: where the result of a command stands in `rsp_data`. -/
def ResultPlaced (i : Instr) (d : Word) : Prop :=
  match i with
  | .atEnd => d.toNat ≤ 1
  | .readUnsigned n => d.toNat < 2 ^ n.toNat
  | .readByte => d.toNat < 2 ^ 8
  | .readSigned n => -(2 ^ (n.toNat - 1) : Int) ≤ d.toInt ∧ d.toInt ≤ 2 ^ (n.toNat - 1) - 1
  | .align => d.toNat = 0
  | .clz => d.toNat ≤ 64

/-- 60_exceptions.md R141: what each status of an offered response says about the latched command. -/
def StatusExplained (s : State) : Prop :=
  match s.rspStatus with
  | .ok => ∃ i, decode s.cmdWord = .command i ∧ i.wf = true ∧ ResultPlaced i s.rspData
  | .errCount => ∃ i, decode s.cmdWord = .command i ∧ i.wf = false
  | .errIllegal => ∃ why, decode s.cmdWord = .illegal why
  | .errSource =>
    ∃ i, decode s.cmdWord = .command i ∧ i.wf = true ∧ i.readCount.isSome = true ∧ s.rlen.toNat = 0

/-- Phase `RESP` offers a response that the latched command explains. -/
def RespInv (s : State) : Prop := s.phase = .resp → StatusExplained s

/-- The invariant of the machine between two steps. -/
structure Inv (s : State) : Prop where
  residue : ResidueInv s
  stream : StreamInv s
  busy : BusyInv s
  resp : RespInv s

/-- Two states that differ at most in what is meaningless: `RBYTE` while `RLEN = 0` (10_state.md R22, U1),
`ACC`, `REM` and the latched command while no command is in flight (R26), the response registers while no
response is offered (30_encoding.md R67). -/
structure SameMeaning (s t : State) : Prop where
  rlen : s.rlen = t.rlen
  rbyte : s.rlen.toNat ≠ 0 → s.rbyte = t.rbyte
  phase : s.phase = t.phase
  busy : s.phase = .busy →
    s.acc = t.acc ∧ s.rem = t.rem ∧ s.cmdWord = t.cmdWord ∧ s.cmdOperand = t.cmdOperand ∧
      s.srcExhausted = t.srcExhausted
  resp : s.phase = .resp → s.rspStatus = t.rspStatus ∧ s.rspData = t.rspData
  stream : s.stream = t.stream
  srcTaken : s.srcTaken = t.srcTaken
  wasReset : s.wasReset = t.wasReset
  drawn : s.drawn = t.drawn
  inputs : s.inputs = t.inputs

/-- Two outcomes of the same kind whose states have the same meaning. -/
def SameOutcome : Result → Result → Prop
  | .next s, .next t => SameMeaning s t
  | .refused r, .refused q => r = q
  | _, _ => False

/-- How many fetches a successful read of `n` bits makes that begins with `r` residue bits
(41_read_unsigned.md R95); the difference is 0 where `n ≤ r`. -/
def readFetches (r n : Nat) : Nat := fetchesFor (n - r)

/-- How many residue bits it leaves (41_read_unsigned.md R94: `L - n`). -/
def readLeftover (r n : Nat) : Nat := r + 8 * readFetches r n - n

/-- The bits it had before it, as a number (41_read_unsigned.md R94: the string `T`). -/
def readSpan (s : State) (bs : List Byte) : Nat := spanValue s.residue bs

/-- The unsigned value of a read of `n` bits that brought the bytes `bs`: the top `n` bits of `T`. -/
def readValue (s : State) (n : Nat) (bs : List Byte) : Nat :=
  readSpan s bs / 2 ^ readLeftover s.rlen.toNat n

/-- The residue it leaves: the low bits of `T`. -/
def readResidue (s : State) (n : Nat) (bs : List Byte) : Nat :=
  readSpan s bs % 2 ^ readLeftover s.rlen.toNat n

/-- The results of `k` commands `READ_UNSIGNED 1` in a row, and the state after them. -/
def singleBitReads : Nat → State → List Word × State
  | 0, s => ([], s)
  | k + 1, s =>
    match exec (.readUnsigned 1) s with
    | .next t => ((t.rspData :: (singleBitReads k t).1), (singleBitReads k t).2)
    | .fault _ => ([], s)
    | .refused _ => ([], s)

/-- An outcome whose next state is changed by `f`. -/
def mapNext (f : State → State) : Result → Result
  | .next s => .next (f s)
  | .fault r => .fault r
  | .refused r => .refused r

/-- The same edges without any command offered on them. -/
def withoutOffers (es : List PortIn) : List PortIn :=
  es.map (fun e => { e with cmdValid := false, cmdWord := 0, cmdOperand := 0 })

end Sys2Proof.Machine
end

