-- ==== Sys2Proof/Certificates/Slice0/Obligations.lean ====
section
/-! DEFINITION. The statements about the model, for the provers. Names of rules are those of spec/. -/

open Sys2Proof Sys2Proof.Machine

/-! Encoding. -/

/-- 30_encoding.md R62: words written out from the opcode map. -/
def Obligations.CommandWordsDecodeAsTheTableSays : Prop :=
  decode 0b0000000000#10 = .command .atEnd ∧
  decode 0b0010000011#10 = .command (.readUnsigned 3) ∧
  decode 0b0011000000#10 = .command (.readUnsigned 64) ∧
  decode 0b0011000001#10 = .command (.readUnsigned 65) ∧
  decode 0b0100000000#10 = .command .readByte ∧
  decode 0b0110000001#10 = .command (.readSigned 1) ∧
  decode 0b0110100000#10 = .command (.readSigned 32) ∧
  decode 0b1000000000#10 = .command .align ∧
  decode 0b1010000000#10 = .command .clz ∧
  decode 0b0000000001#10 = .illegal .countNotZero ∧
  decode 0b1100000000#10 = .illegal .reservedOpcode ∧
  decode 0b1111111111#10 = .illegal .reservedOpcode

/-- 30_encoding.md R60, R62: for every command at every value of its count field, decoding its command word
gives it back. -/
def Obligations.DecodeOfEncodeIsTheCommand : Prop :=
  ∀ i : Instr, decode (encode i) = .command i

/-- 30_encoding.md R62, R63: each command word names at most one command, and a command has one word. -/
def Obligations.EncodeOfDecodeIsTheWord : Prop :=
  ∀ (w : CmdWord) (i : Instr), decode w = .command i → encode i = w

/-- 30_encoding.md R60: `cmd_word = op * 128 + n`. -/
def Obligations.CommandWordIsOpTimes128PlusCount : Prop :=
  (∀ i : Instr, (encode i).toNat = i.opCode.toNat * 128 + i.countBits.toNat) ∧
  (∀ w : CmdWord, w.toNat = (opField w).toNat * 128 + (countField w).toNat)

/-- 30_encoding.md R63: the four classes, by the ranges of the table. -/
def Obligations.CommandWordClasses : Prop :=
  ∀ w : CmdWord,
    (classify w = .legal ↔
      w.toNat = 0x000 ∨ (0x080 ≤ w.toNat ∧ w.toNat ≤ 0x0C0) ∨ w.toNat = 0x100 ∨
      (0x181 ≤ w.toNat ∧ w.toNat ≤ 0x1A0) ∨ w.toNat = 0x200 ∨ w.toNat = 0x280) ∧
    (classify w = .countOutOfRange ↔
      (0x0C1 ≤ w.toNat ∧ w.toNat ≤ 0x0FF) ∨ w.toNat = 0x180 ∨ (0x1A1 ≤ w.toNat ∧ w.toNat ≤ 0x1FF)) ∧
    (classify w = .illegal .reservedOpcode ↔ 0x300 ≤ w.toNat) ∧
    (classify w = .illegal .countNotZero ↔
      (0x001 ≤ w.toNat ∧ w.toNat ≤ 0x07F) ∨ (0x101 ≤ w.toNat ∧ w.toNat ≤ 0x17F) ∨
      (0x201 ≤ w.toNat ∧ w.toNat ≤ 0x27F) ∨ (0x281 ≤ w.toNat ∧ w.toNat ≤ 0x2FF))

/-! The commands. -/

/-- 40_at_end.md R80: `AT_END` completes in every state with the boolean of the truth table and writes
nothing else; its word is `0x000`, and its opcode with another count field is illegal. That `src_exhausted`
is the level sampled with the command is the model's choice (log 3). -/
def Obligations.AtEndAnswersWhetherEmptyAndExhausted : Prop :=
  (∀ s : State,
    exec .atEnd s = .next { s with
      phase := .resp, rspStatus := .ok
      rspData := if s.rlen.toNat = 0 ∧ s.srcExhausted = true then 1 else 0 }) ∧
  encode .atEnd = 0x000#10 ∧
  (∀ n : Count, n ≠ 0 → decode (0#3 ++ n) = .illegal .countNotZero)

/-- 43_align.md R120: `ALIGN` completes in every state, takes `RLEN mod 8` from `RLEN`, keeps `RBYTE` and
everything else; by the table `RLEN` becomes 0 from 0 to 7 and stays 8 from 8; its word is `0x200`, and its
opcode with another count field is illegal. -/
def Obligations.AlignDiscardsTheResidue : Prop :=
  (∀ s : State, ∃ l : ResidueLen,
    exec .align s = .next { s with rlen := l, phase := .resp, rspStatus := .ok, rspData := 0 } ∧
    l.toNat = s.rlen.toNat - s.rlen.toNat % 8 ∧
    (s.rlen.toNat ≤ 7 → l.toNat = 0) ∧ (s.rlen.toNat = 8 → l.toNat = 8)) ∧
  encode .align = 0x200#10 ∧
  (∀ n : Count, n ≠ 0 → decode (4#3 ++ n) = .illegal .countNotZero)

/-- 43_align.md R121, from a state of the boundary (10_state.md R23): idempotent; `RLEN mod 8 = 0` after it;
the cursor goes up by the old `RLEN` to the next multiple of 8 with nothing fetched; in `EMPTY` nothing
changes but the response; `AT_END` never goes from true to false by it, and goes from false to true exactly
when a residue is discarded while the source reports exhaustion. -/
def Obligations.AlignLaws : Prop :=
  ∀ s : State, ResidueInv s → ∃ t : State,
    exec .align s = .next t ∧ exec .align t = .next t ∧ t.rlen.toNat % 8 = 0 ∧
    t.pos = s.pos + s.rlen.toNat ∧ t.pos % 8 = 0 ∧ t.stream = s.stream ∧ t.inputs = s.inputs ∧
    (s.rlen.toNat = 0 → t = { s with phase := .resp, rspStatus := .ok, rspData := 0 }) ∧
    (atEndResult s.rlen s.srcExhausted = 1 → atEndResult t.rlen t.srcExhausted = 1) ∧
    ((atEndResult s.rlen s.srcExhausted = 0 ∧ atEndResult t.rlen t.srcExhausted = 1) ↔
      (1 ≤ s.rlen.toNat ∧ s.srcExhausted = true))

/-- 44_clz.md R130: `CLZ` completes in every state with the count of the latched operand, 64 for 0 and
`63 - p` for the highest set bit `p`, and writes nothing else; its word is `0x280`, and its opcode with
another count field is illegal. -/
def Obligations.ClzCountsLeadingZeros : Prop :=
  (∀ s : State, ∃ c : Nat,
    exec .clz s = .next { s with phase := .resp, rspStatus := .ok, rspData := BitVec.ofNat 64 c } ∧ c ≤ 64 ∧
    (s.cmdOperand = 0 → c = 64) ∧
    (∀ p : Nat, p < 64 → s.cmdOperand.getLsbD p = true →
      (∀ q : Nat, p < q → q < 64 → s.cmdOperand.getLsbD q = false) → c = 63 - p)) ∧
  encode .clz = 0x280#10 ∧
  (∀ n : Count, n ≠ 0 → decode (5#3 ++ n) = .illegal .countNotZero)

/-- 44_clz.md R131: the count for a narrower width. -/
def Obligations.ClzOfNarrowerWidth : Prop :=
  ∀ (W : Nat) (x : Word), 1 ≤ W → W ≤ 64 → x.toNat < 2 ^ W →
    leadingZeros (x.setWidth W) = leadingZeros x - (64 - W) ∧ 64 - W ≤ leadingZeros x

/-- 41_read_unsigned.md R90, R94: `READ_UNSIGNED n` completes where the source supplies its bytes, with the
top `n` bits of the string `T` of residue and bytes, leaves the low bits in the residue, and writes nothing
else. `ACC` and `REM` are open after the operation (10_state.md R26). -/
def Obligations.ReadUnsignedClosedForm : Prop :=
  ∀ (s : State) (n : Count) (bs : List Byte) (rest : List PortIn),
    ResidueInv s → n.toNat ≤ 64 →
    suppliedBytes (readFetches s.rlen.toNat n.toNat) s.inputs = some (bs, rest) →
    ∃ (rb : Byte) (ac : Word) (rm : Count),
      exec (.readUnsigned n) s = .next { s with
        rbyte := rb
        rlen := BitVec.ofNat 4 (readLeftover s.rlen.toNat n.toNat)
        phase := .resp, acc := ac, rem := rm, rspStatus := .ok
        rspData := BitVec.ofNat 64 (readValue s n.toNat bs)
        stream := s.stream ++ bs, srcTaken := s.srcTaken + bs.length, inputs := rest } ∧
      readValue s n.toNat bs < 2 ^ n.toNat ∧
      readLeftover s.rlen.toNat n.toNat ≤ 7 ∧
      (n.toNat ≠ 0 → rb.toNat = readResidue s n.toNat bs) ∧
      (n.toNat = 0 → rb = s.rbyte)

/-- 41_read_unsigned.md R96: the zero count, in every state. -/
def Obligations.ReadOfZeroBitsTouchesNothing : Prop :=
  ∀ s : State, ∃ (ac : Word) (rm : Count),
    exec (.readUnsigned 0) s =
      .next { s with phase := .resp, acc := ac, rem := rm, rspStatus := .ok, rspData := 0 }

/-- 41_read_unsigned.md R95: how many fetches a successful read makes; at most 8. -/
def Obligations.ReadUnsignedFetchCount : Prop :=
  ∀ (s t : State) (n : Count), ResidueInv s → exec (.readUnsigned n) s = .next t → t.phase = .resp →
    t.rspStatus = .ok →
    (n.toNat ≤ s.rlen.toNat → t.nfetch = s.nfetch ∧ t.inputs = s.inputs) ∧
    (s.rlen.toNat < n.toNat → t.nfetch = s.nfetch + (n.toNat - s.rlen.toNat + 7) / 8) ∧
    t.nfetch ≤ s.nfetch + 8 ∧
    ∃ bs : List Byte, t.stream = s.stream ++ bs ∧ suppliedBytes bs.length s.inputs = some (bs, t.inputs)

/-- 41_read_unsigned.md R91: `READ_BYTE` is `READ_UNSIGNED 8` in every state, whatever the source does. -/
def Obligations.ReadByteIsReadUnsignedEight : Prop :=
  ∀ s : State, exec .readByte s = exec (.readUnsigned 8) s

/-- 41_read_unsigned.md R91: `READ_BYTE` completes with one fetch and returns the `r` residue bits followed by
the top `8 - r` bits of the next byte, whose low `r` bits are left as the residue. -/
def Obligations.ReadByteSpansTheByteBoundary : Prop :=
  ∀ (s : State) (b : Byte) (rest : List PortIn),
    ResidueInv s → awaitReply s.inputs = .reply (.byte b) rest →
    ∃ (rb : Byte) (ac : Word) (rm : Count) (d : Word),
      exec .readByte s = .next { s with
        rbyte := rb, phase := .resp, acc := ac, rem := rm, rspStatus := .ok, rspData := d
        stream := s.stream ++ [b], srcTaken := s.srcTaken + 1, inputs := rest } ∧
      d.toNat = s.residue * 2 ^ (8 - s.rlen.toNat) + b.toNat / 2 ^ s.rlen.toNat ∧
      rb.toNat = b.toNat % 2 ^ s.rlen.toNat

/-- 42_read_signed.md R110: `READ_SIGNED n` completes where the source supplies its bytes, with the two's
complement value of the `n` bits, and has the state effect of `READ_UNSIGNED n`. -/
def Obligations.ReadSignedClosedForm : Prop :=
  ∀ (s : State) (n : Count) (bs : List Byte) (rest : List PortIn),
    ResidueInv s → 1 ≤ n.toNat → n.toNat ≤ 32 →
    suppliedBytes (readFetches s.rlen.toNat n.toNat) s.inputs = some (bs, rest) →
    ∃ (rb : Byte) (ac : Word) (rm : Count) (d : Word),
      exec (.readSigned n) s = .next { s with
        rbyte := rb
        rlen := BitVec.ofNat 4 (readLeftover s.rlen.toNat n.toNat)
        phase := .resp, acc := ac, rem := rm, rspStatus := .ok, rspData := d
        stream := s.stream ++ bs, srcTaken := s.srcTaken + bs.length, inputs := rest } ∧
      d.toInt = (if readValue s n.toNat bs < 2 ^ (n.toNat - 1) then (readValue s n.toNat bs : Int)
        else (readValue s n.toNat bs : Int) - 2 ^ n.toNat) ∧
      -(2 ^ (n.toNat - 1) : Int) ≤ d.toInt ∧ d.toInt ≤ 2 ^ (n.toNat - 1) - 1 ∧
      rb.toNat = readResidue s n.toNat bs

/-- 42_read_signed.md R110: in every state and whatever the source does, `READ_SIGNED n` and
`READ_UNSIGNED n` differ at most in `rsp_data`, and where they complete the signed result is the mux of the
unsigned one (R111). -/
def Obligations.ReadSignedHasTheStateEffectOfReadUnsigned : Prop :=
  ∀ (s : State) (n : Count), 1 ≤ n.toNat → n.toNat ≤ 32 →
    ∃ (t : State) (d : Word), exec (.readUnsigned n) s = .next t ∧
      exec (.readSigned n) s = .next { t with rspData := d } ∧
      (t.phase = .resp → t.rspStatus = .ok → ∀ i : Nat, i < 64 →
        d.getLsbD i = if i < n.toNat then t.rspData.getLsbD i else t.rspData.getLsbD (n.toNat - 1))

/-- 42_read_signed.md R111: the shifts through the 32-bit frame are the sign-extension multiplexer, that is
`u - 2^n * u[n-1]` modulo `2^64`. -/
def Obligations.SignExtensionIsTheMux : Prop :=
  ∀ (n : Count) (u : Word), 1 ≤ n.toNat → n.toNat ≤ 32 → u.toNat < 2 ^ n.toNat →
    (∀ i : Nat, i < 64 →
      (signedResult n u).getLsbD i = if i < n.toNat then u.getLsbD i else u.getLsbD (n.toNat - 1)) ∧
    ((signedResult n u).toNat : Int) =
      ((u.toNat : Int) - 2 ^ n.toNat * (u.getLsbD (n.toNat - 1)).toNat) % 2 ^ 64

/-- 60_exceptions.md R146 (R143 at the level of a command): a read whose count is out of range ends with
`ERR_COUNT` in every state, whatever the source would do, and writes nothing but its response. -/
def Obligations.OutOfRangeCountChangesNothing : Prop :=
  ∀ (i : Instr) (s : State), i.wf = false → ∃ d : Word,
    exec i s = .next { s with phase := .resp, rspStatus := .errCount, rspData := d, drawn := s.drawn + 1 }

/-- 41_read_unsigned.md R98, 60_exceptions.md R144, R147: any legal read whose `j+1`-st fetch fails ends with
`ERR_SOURCE`; `RLEN = 0`, the bits it took are gone, the source has seen every fetch, and the cursor stands
at `8 * NFETCH`. `RBYTE`, `ACC`, `REM` and the data are open. -/
def Obligations.FailedFetchEndsTheRead : Prop :=
  ∀ (i : Instr) (n : Count) (s : State) (j : Nat) (bs : List Byte) (rest rest' : List PortIn),
    ResidueInv s → i.readCount = some n → i.wf = true →
    j < readFetches s.rlen.toNat n.toNat →
    suppliedBytes j s.inputs = some (bs, rest) → awaitReply rest = .reply .fail rest' →
    ∃ (rb : Byte) (ac : Word) (rm : Count) (d : Word) (t : State),
      t = { s with
        rbyte := rb, rlen := 0, phase := .resp, acc := ac, rem := rm
        rspStatus := .errSource, rspData := d, drawn := s.drawn + 1
        stream := s.stream ++ bs, srcTaken := s.srcTaken + bs.length, inputs := rest' } ∧
      exec i s = .next t ∧ t.pos = 8 * t.nfetch

/-- 70_reset_and_hazards.md R180, 20_memory.md R44: any legal read whose `j+1`-st fetch is not answered stays
in phase `BUSY` with `src_req = 1`, with the bits it took in `ACC` and the rest still in `REM`. -/
def Obligations.UnansweredFetchKeepsTheCoreBusy : Prop :=
  ∀ (i : Instr) (n : Count) (s : State) (j : Nat) (bs : List Byte) (rest rest' : List PortIn),
    ResidueInv s → decode s.cmdWord = .command i → i.readCount = some n → i.wf = true →
    j < readFetches s.rlen.toNat n.toNat →
    suppliedBytes j s.inputs = some (bs, rest) → awaitReply rest = .silent rest' →
    ∃ (rb : Byte) (t : State),
      t = { s with
        rbyte := rb, rlen := 0, phase := .busy
        acc := BitVec.ofNat 64 (readSpan s bs)
        rem := BitVec.ofNat 7 (n.toNat - (s.rlen.toNat + 8 * j))
        stream := s.stream ++ bs, srcTaken := s.srcTaken + bs.length, inputs := rest' } ∧
      exec i s = .next t ∧ t.srcReq = true ∧ t.cmdReady = false ∧ t.rspValid = false

/-- 20_memory.md R44, 70_reset_and_hazards.md R183: a read that waited goes on exactly as if the answers had
been there at once: neither when nor in how many parts the source answers has an effect. That a step uses up the
edges of a wait at once is the model's choice (log 1). -/
def Obligations.WaitingReadGoesOnAsIfNeverStopped : Prop :=
  (∀ (i : Instr) (s t : State) (es es' : List PortIn),
    decode s.cmdWord = .command i → exec i { s with inputs := es } = .next t →
    t.phase = .busy → t.inputs = [] → (∀ e ∈ es'.head?, e.rst = false) →
    step { t with inputs := es' } = exec i { s with inputs := es ++ es' }) ∧
  (∀ (s t : State) (es es' : List PortIn),
    s.phase = .busy → (∀ e ∈ es.head?, e.rst = false) → step { s with inputs := es } = .next t →
    t.phase = .busy → t.inputs = [] → (∀ e ∈ es'.head?, e.rst = false) →
    step { t with inputs := es' } = step { s with inputs := es ++ es' })

/-- 41_read_unsigned.md R92: every iteration takes 1 to 8 bits, at most 9 iterations are needed from a state
of the boundary, and 9 are needed for 64 bits with a residue of 1 to 7. -/
def Obligations.NineIterationsSuffice : Prop :=
  (∀ s : State, 1 ≤ s.rlen.toNat → s.rlen.toNat ≤ 8 → 1 ≤ s.rem.toNat →
    1 ≤ chunkSize s ∧ chunkSize s ≤ 8 ∧ (takeChunk s).rem.toNat = s.rem.toNat - chunkSize s) ∧
  (∀ (s : State) (fuel : Nat), ResidueInv s → s.rem.toNat ≤ 64 → 9 ≤ fuel ∨ s.rem.toNat ≤ fuel →
    readLoop fuel s = readLoop 9 s) ∧
  (∀ (s : State) (p : List Byte × List PortIn), ResidueInv s → 1 ≤ s.rlen.toNat → s.rem.toNat = 64 →
    suppliedBytes 8 s.inputs = some p →
    (∃ t : State, readLoop 9 s = .go t ∧ t.rem.toNat = 0) ∧
    (∃ t : State, readLoop 8 s = .go t ∧ t.rem.toNat ≠ 0))

/-- 20_memory.md R46, 10_state.md R28: a successful read of `n` bits, by any of the three reads, delivers the
bits `S[POS]` to `S[POS+n-1]` of the source's bit string, most significant first, and leaves the cursor `n`
further: `READ_UNSIGNED` and `READ_BYTE` as the number with these digits, `READ_SIGNED` as the two's complement
value of the same digits (42_read_signed.md R110, R111). -/
def Obligations.ReadsDeliverConsecutiveBitsOfTheStream : Prop :=
  ∀ (i : Instr) (s t : State) (n : Count), ResidueInv s → StreamInv s → i.readCount = some n →
    exec i s = .next t → t.phase = .resp → t.rspStatus = .ok →
    ∃ v : Nat,
      v = bitsValue (((bitString t.stream).drop s.pos.toNat).take n.toNat) ∧
      0 ≤ s.pos ∧ t.pos = s.pos + n.toNat ∧ s.stream <+: t.stream ∧
      s.pos.toNat + n.toNat ≤ (bitString t.stream).length ∧
      (i ≠ .readSigned n → t.rspData.toNat = v) ∧
      (i = .readSigned n →
        t.rspData.toInt = if v < 2 ^ (n.toNat - 1) then (v : Int) else (v : Int) - 2 ^ n.toNat)

/-- 41_read_unsigned.md R97 (ii), in the spec's exact reading: from `RLEN = 0`, reads of `n` and then of `m`
bits with `n + m` a multiple of 8 give back the bytes. -/
def Obligations.TwoReadsReconstructTheBytes : Prop :=
  ∀ (s : State) (n m : Count) (bs : List Byte) (rest : List PortIn),
    s.rlen.toNat = 0 → n.toNat ≤ 64 → m.toNat ≤ 64 → (n.toNat + m.toNat) % 8 = 0 →
    suppliedBytes ((n.toNat + m.toNat) / 8) s.inputs = some (bs, rest) →
    ∃ t u : State,
      exec (.readUnsigned n) s = .next t ∧ t.phase = .resp ∧ t.rspStatus = .ok ∧
      exec (.readUnsigned m) t = .next u ∧ u.phase = .resp ∧ u.rspStatus = .ok ∧
      t.rspData.toNat * 2 ^ m.toNat + u.rspData.toNat = spanValue 0 bs ∧
      u.rlen.toNat = 0 ∧ u.stream = s.stream ++ bs ∧ u.inputs = rest

/-- 41_read_unsigned.md R97 (i): from `RLEN = 0`, eight reads of one bit give the bits of the next byte, bit 7
first, with one fetch; `READ_BYTE` gives that byte. -/
def Obligations.EightSingleBitsAreOneByte : Prop :=
  ∀ (s : State) (b : Byte) (rest : List PortIn),
    s.rlen.toNat = 0 → awaitReply s.inputs = .reply (.byte b) rest →
    (singleBitReads 8 s).1 = (byteBits b).map (fun x => if x then 1 else 0) ∧
    (singleBitReads 8 s).2.stream = s.stream ++ [b] ∧ (singleBitReads 8 s).2.inputs = rest ∧
    bitsValue (byteBits b) = b.toNat ∧
    ∃ t : State, exec .readByte s = .next t ∧ t.rspStatus = .ok ∧ t.rspData.toNat = b.toNat

/-- 10_state.md R32 (the columns "writes" and "can call SrcFetch"), R50: what no command writes, and what only
the reads and `ALIGN` write; the bytes handed over only grow, the edges are only used up. -/
def Obligations.CommandsKeepWhatTheyDoNotWrite : Prop :=
  ∀ (i : Instr) (s t : State), exec i s = .next t →
    t.cmdWord = s.cmdWord ∧ t.cmdOperand = s.cmdOperand ∧ t.srcExhausted = s.srcExhausted ∧
    t.wasReset = s.wasReset ∧ s.stream <+: t.stream ∧ t.inputs <:+ s.inputs ∧
    t.srcTaken + s.stream.length = s.srcTaken + t.stream.length ∧
    (i.readCount = none ∨ i.wf = false → t.rbyte = s.rbyte ∧ t.acc = s.acc ∧ t.rem = s.rem ∧
      t.stream = s.stream ∧ t.srcTaken = s.srcTaken ∧ t.inputs = s.inputs) ∧
    (i = .atEnd ∨ i = .clz ∨ i.wf = false → t.rlen = s.rlen ∧ t.pos = s.pos)

/-- 60_exceptions.md R144, 30_encoding.md R61: no read depends on `src_exhausted`, and only `CLZ` depends on
`cmd_operand`. -/
def Obligations.CommandsIgnoreWhatTheyDoNotRead : Prop :=
  (∀ (i : Instr) (s : State) (b : Bool), i ≠ .atEnd →
    exec i { s with srcExhausted := b } = mapNext (fun t => { t with srcExhausted := b }) (exec i s)) ∧
  (∀ (i : Instr) (s : State) (v : Word), i ≠ .clz →
    exec i { s with cmdOperand := v } = mapNext (fun t => { t with cmdOperand := v }) (exec i s))

/-- 60_exceptions.md R140: every command, in every state, answers a next state: its response, or a core that
is still busy. -/
def Obligations.EveryCommandAnswersANextState : Prop :=
  ∀ (i : Instr) (s : State), ∃ t : State, exec i s = .next t ∧ (t.phase = .resp ∨ t.phase = .busy) ∧
    (i.readCount = none → t.phase = .resp)

/-- 70_reset_and_hazards.md R183: where the source answers eight requests, with bytes or with failures, every
command is answered. -/
def Obligations.EveryCommandIsAnsweredWhenTheSourceAnswers : Prop :=
  ∀ (i : Instr) (s : State), answersRequests 8 s.inputs = true →
    ∃ t : State, exec i s = .next t ∧ t.phase = .resp

/-! The interface. -/

/-- 30_encoding.md R66, R68: a command offered in `IDLE` is accepted: word and operand are latched, the core
is `BUSY`, and the step is the decoded command's own meaning there. Two things are the model's choice and no
rule's: the level of `src_exhausted` is sampled on the accepting edge (log 3), and acceptance and execution are
one step (log 1). -/
def Obligations.StepRunsTheDecodedCommand : Prop :=
  ∀ (s : State) (e : PortIn) (es : List PortIn) (i : Instr),
    s.inputs = e :: es → e.rst = false → e.cmdValid = true → s.phase = .idle → s.wasReset = true →
    decode e.cmdWord = .command i →
    step s = exec i { s with
      phase := .busy, cmdWord := e.cmdWord, cmdOperand := e.cmdOperand
      srcExhausted := e.srcExhausted, inputs := es }

/-- 60_exceptions.md R142 after the latch of 30_encoding.md R66: an accepted illegal command is answered with
`ERR_ILLEGAL` from its word alone; no state changes and no fetch is made, whatever the source would do, and
`src_exhausted` is not consulted: at either level everything else is the same. That its level is sampled on the
accepting edge, and so stands in the next state, is the model's choice (log 3). -/
def Obligations.IllegalCommandIsAnsweredErrIllegal : Prop :=
  ∀ (s : State) (e : PortIn) (es : List PortIn),
    s.inputs = e :: es → e.rst = false → e.cmdValid = true → s.phase = .idle → s.wasReset = true →
    ((e.cmdWord.extractLsb' 7 3 = 6#3 ∨ e.cmdWord.extractLsb' 7 3 = 7#3) ∨
      ((e.cmdWord.extractLsb' 7 3 = 0#3 ∨ e.cmdWord.extractLsb' 7 3 = 2#3 ∨
          e.cmdWord.extractLsb' 7 3 = 4#3 ∨ e.cmdWord.extractLsb' 7 3 = 5#3) ∧
        e.cmdWord.extractLsb' 0 7 ≠ 0#7)) →
    ∃ d : Word,
      step s = .next { s with
        phase := .resp, cmdWord := e.cmdWord, cmdOperand := e.cmdOperand, srcExhausted := e.srcExhausted
        rspStatus := .errIllegal, rspData := d, drawn := s.drawn + 1, inputs := es } ∧
      ∀ b : Bool, step { s with inputs := { e with srcExhausted := b } :: es } = .next { s with
        phase := .resp, cmdWord := e.cmdWord, cmdOperand := e.cmdOperand, srcExhausted := b
        rspStatus := .errIllegal, rspData := d, drawn := s.drawn + 1, inputs := es }

/-- 60_exceptions.md R143 after the latch of 30_encoding.md R66: an accepted read with a count out of its range
is answered with `ERR_COUNT` from its word alone; no state changes and no fetch is made. That the level of
`src_exhausted` is sampled on the accepting edge, and so stands in the next state, is the model's choice
(log 3). -/
def Obligations.CountOutOfRangeIsAnsweredErrCount : Prop :=
  ∀ (s : State) (e : PortIn) (es : List PortIn),
    s.inputs = e :: es → e.rst = false → e.cmdValid = true → s.phase = .idle → s.wasReset = true →
    ((e.cmdWord.extractLsb' 7 3 = 1#3 ∧ 64 < (e.cmdWord.extractLsb' 0 7).toNat) ∨
      (e.cmdWord.extractLsb' 7 3 = 3#3 ∧
        ((e.cmdWord.extractLsb' 0 7).toNat = 0 ∨ 32 < (e.cmdWord.extractLsb' 0 7).toNat))) →
    ∃ d : Word, step s = .next { s with
      phase := .resp, cmdWord := e.cmdWord, cmdOperand := e.cmdOperand, srcExhausted := e.srcExhausted
      rspStatus := .errCount, rspData := d, drawn := s.drawn + 1, inputs := es }

/-- 30_encoding.md R67: a response is offered unchanged, and nothing changes, until the edge on which the host
is ready; on that edge the core returns to `IDLE` and keeps `RBYTE` and `RLEN`. What an `IDLE` core leaves
unspecified is open (10_state.md R26; log 5). -/
def Obligations.ResponseIsHeldUntilDelivered : Prop :=
  ∀ s : State, s.phase = .resp → s.edge.rst = false →
    s.rspValid = true ∧
    (s.edge.rspReady = false → step s = .next { s with inputs := s.inputs.tail }) ∧
    (s.edge.rspReady = true →
      ∃ (ac : Word) (rm : Count) (cw : CmdWord) (co : Word) (st : Status) (d : Word),
        step s = .next { s with
          phase := .idle, acc := ac, rem := rm, cmdWord := cw, cmdOperand := co, rspStatus := st
          rspData := d, drawn := s.drawn + 1, inputs := s.inputs.tail })

/-- 30_encoding.md R66: in `IDLE` the core is ready, and where no command is offered nothing happens. -/
def Obligations.IdleCoreWaitsForACommand : Prop :=
  ∀ s : State, s.phase = .idle → s.edge.rst = false → s.edge.cmdValid = false →
    s.cmdReady = true ∧ step s = .next { s with inputs := s.inputs.tail }

/-- 93_implementation_defined.md U14, 70_reset_and_hazards.md R170: a command issued before the first reset is
refused. The ghost that tells it is the model's (log 8). -/
def Obligations.CommandBeforeResetIsRefused : Prop :=
  ∀ s : State, s.phase = .idle → s.wasReset = false → s.edge.rst = false → s.edge.cmdValid = true →
    step s = .refused .commandBeforeReset

/-- 70_reset_and_hazards.md R180, 60_exceptions.md R151: while the source does not answer and there is no
reset, nothing happens at all; `cmd_ready = 0`, `rsp_valid = 0`, `src_req = 1`. That one step passes all the
scheduled edges of the wait is the model's choice (log 1). -/
def Obligations.BusyCoreWaitsWithoutBound : Prop :=
  ∀ s : State, s.srcReq = true → (∀ e ∈ s.inputs, e.rst = false ∧ e.srcAck = false) →
    step s = .next { s with inputs := [] } ∧ s.cmdReady = false ∧ s.rspValid = false ∧ s.phase = .busy

/-- 30_encoding.md R68: commands offered while one is in flight change nothing, in `BUSY` and in `RESP`. -/
def Obligations.CommandsOfferedWhileNotReadyChangeNothing : Prop :=
  ∀ s t : State, s.phase ≠ .idle → step s = .next t →
    step { s with inputs := withoutOffers s.inputs } = .next { t with inputs := withoutOffers t.inputs }

/-- 10_state.md R25: the transitions of `PHASE` that a step makes (a step passes through `BUSY` where the
command does not wait; log 1). -/
def Obligations.PhaseTransitions : Prop :=
  ∀ s t : State, step s = .next t →
    (s.edge.rst = true → t.phase = .idle) ∧
    (s.edge.rst = false → s.phase = .idle →
      (s.edge.cmdValid = false → t.phase = .idle) ∧
      (s.edge.cmdValid = true → t.phase = .busy ∨ t.phase = .resp)) ∧
    (s.edge.rst = false → s.phase = .busy → t.phase = .busy ∨ t.phase = .resp) ∧
    (s.edge.rst = false → s.phase = .resp →
      (s.edge.rspReady = false → t.phase = .resp) ∧ (s.edge.rspReady = true → t.phase = .idle))

/-- 10_state.md R29, 70_reset_and_hazards.md R170, R171: one reset edge, in every state and whatever stands at
the other inputs, gives the state after reset; the registers R29 leaves unspecified are open (log 5); the
ghosts restart; a command on that edge is not accepted. The marks `wasReset` and `srcTaken` are the model's own
(log 8, log 9). -/
def Obligations.ResetEdgeGivesTheResetState : Prop :=
  ∀ s : State, s.edge.rst = true →
    ∃ (rb : Byte) (ac : Word) (rm : Count) (cw : CmdWord) (co : Word) (st : Status) (d : Word) (k : Nat)
      (t : State),
      t = { s with
        rbyte := rb, rlen := 0, phase := .idle, acc := ac, rem := rm, cmdWord := cw, cmdOperand := co
        rspStatus := st, rspData := d, stream := [], srcTaken := k, wasReset := true
        drawn := s.drawn + 1, inputs := s.inputs.tail } ∧
      step s = .next t ∧ t.nfetch = 0 ∧ t.pos = 0 ∧
      t.cmdReady = true ∧ t.rspValid = false ∧ t.srcReq = false ∧
      (s.srcReq = false → k = s.srcTaken)

/-- 70_reset_and_hazards.md R172: a command in flight at a reset edge is abandoned without a response; a fetch
that completes on that very edge is counted by the source and discarded by the core, an unanswered one is
withdrawn and not counted; what was fetched before stays consumed. That an answer with `src_fail = 1` on that
edge hands over no byte, and so leaves the count unchanged, is the model's inference from 20_memory.md R41 and
R44 (log 9), not R172's words. -/
def Obligations.ResetAbandonsTheCommandInFlight : Prop :=
  ∀ s : State, s.edge.rst = true → s.phase ≠ .idle → ∃ t : State,
    step s = .next t ∧ t.phase = .idle ∧ t.rspValid = false ∧ t.srcReq = false ∧ t.rlen.toNat = 0 ∧
    t.stream = [] ∧
    (s.srcReq = true → s.edge.srcAck = true → s.edge.srcFail = false → t.srcTaken = s.srcTaken + 1) ∧
    (s.srcReq = false ∨ s.edge.srcAck = false ∨ s.edge.srcFail = true → t.srcTaken = s.srcTaken)

/-! Whole-machine statements. -/

/-- The invariant holds after reset. The reset values the spec leaves open are the model's (log 4); no part of
the invariant reads one. -/
def Obligations.ResetSatisfiesTheInvariant : Prop := Inv State.reset

/-- 10_state.md R20, R22, R23, 41_read_unsigned.md R93, 30_encoding.md R64, 60_exceptions.md R141: every step
keeps the invariant. Two of its parts rest on the model's choices: that a `BUSY` core between two steps is a
legal read with `RLEN = 0` and bits still demanded (log 1), and that the latched command still stands in `RESP`,
where the response is explained by it (log 5). -/
def Obligations.EveryStepKeepsTheInvariant : Prop :=
  ∀ s t : State, Inv s → step s = .next t → Inv t

/-- 60_exceptions.md R148: once reset, the machine never stops: every step answers a next state, and it stays
reset. The mark that it has been reset is the model's (log 8). -/
def Obligations.AResetMachineNeverStops : Prop :=
  ∀ s : State, s.wasReset = true → ∃ t : State, step s = .next t ∧ t.wasReset = true

/-- 10_state.md R30, 20_memory.md R44: in a state of the invariant exactly one of `cmd_ready`, `rsp_valid` and
`src_req` is 1, and `src_req = 1` only with `RLEN = 0`. That a core between two steps is `BUSY` only while it
requests a byte is the model's (log 1). -/
def Obligations.ExactlyOneOfReadyValidRequest : Prop :=
  ∀ s : State, Inv s →
    ((s.cmdReady = true ∧ s.rspValid = false ∧ s.srcReq = false) ∨
      (s.cmdReady = false ∧ s.rspValid = true ∧ s.srcReq = false) ∨
      (s.cmdReady = false ∧ s.rspValid = false ∧ s.srcReq = true)) ∧
    (s.srcReq = true → s.rlen.toNat = 0)

/-- 10_state.md R22, R26, U1: nothing that happens depends on `RBYTE` while `RLEN = 0`, on `ACC`, `REM` or the
latched command while no command is in flight, or on the response registers while no response is offered. -/
def Obligations.NothingDependsOnMeaninglessRegisters : Prop :=
  ∀ s t : State, SameMeaning s t → SameOutcome (step s) (step t)

/-! The list source of 20_memory.md R54 in closed loop. -/

/-- 20_memory.md R54, R49: over a list source with enough bytes `READ_UNSIGNED n` delivers its bits and leaves
the source exactly the bytes it did not need (the closed loop is the model's, log 14). -/
def Obligations.ListSourceReadLeavesTheRest : Prop :=
  ∀ (s : State) (bs : List Byte) (n : Count) (v : Word),
    ResidueInv s → s.phase = .idle → s.wasReset = true → n.toNat ≤ 64 →
    readFetches s.rlen.toNat n.toNat ≤ bs.length →
    ∃ t : State, issueOverList bs (encode (.readUnsigned n)) v s =
        (t, bs.drop (readFetches s.rlen.toNat n.toNat)) ∧
      t.phase = .resp ∧ t.rspStatus = .ok ∧
      t.rspData.toNat = readValue s n.toNat (bs.take (readFetches s.rlen.toNat n.toNat)) ∧
      t.rlen.toNat = readLeftover s.rlen.toNat n.toNat ∧ t.pos = s.pos + n.toNat

/-- 20_memory.md R54, 60_exceptions.md R147: over a list source with too few bytes `READ_UNSIGNED n` ends with
`ERR_SOURCE` and has consumed them all; `AT_END` is true exactly when residue and list are empty. The closed
loop (log 14) and the sampling of `src_exhausted` on the accepting edge (log 3) are the model's. -/
def Obligations.ListSourceRunsDry : Prop :=
  ∀ (s : State) (bs : List Byte) (v : Word), ResidueInv s → s.phase = .idle → s.wasReset = true →
    (∀ n : Count, n.toNat ≤ 64 → bs.length < readFetches s.rlen.toNat n.toNat →
      ∃ t : State, issueOverList bs (encode (.readUnsigned n)) v s = (t, []) ∧
        t.phase = .resp ∧ t.rspStatus = .errSource ∧ t.rlen.toNat = 0 ∧ t.nfetch = s.nfetch + bs.length) ∧
    (∃ t : State, issueOverList bs (encode .atEnd) v s = (t, bs) ∧ t.phase = .resp ∧ t.rspStatus = .ok ∧
      t.rspData = if s.rlen.toNat = 0 ∧ bs = [] then 1 else 0)
end

