-- ==== Sys2Proof/Laws/Source.lean ====
section
/-! SUPPORT. What the edges at the input ports say about a row of fetches, and the arithmetic of the number
a row of bytes spells. -/

namespace Sys2Proof.Machine

/-- A row of fetches begins with its first. -/
theorem suppliedBytes_succ {k : Nat} {es rest : List PortIn} {bs : List Byte}
    (h : suppliedBytes (k + 1) es = some (bs, rest)) :
    ∃ b bs' es', awaitReply es = .reply (.byte b) es' ∧ suppliedBytes k es' = some (bs', rest) ∧
      bs = b :: bs' := by
  unfold suppliedBytes at h
  split at h
  · rename_i b es' he
    obtain ⟨⟨bs', r⟩, hp, hq⟩ := Option.map_eq_some_iff.mp h
    cases hq
    exact ⟨b, bs', es', he, hp, rfl⟩
  · cases h
  · cases h

theorem suppliedBytes_length : ∀ {k : Nat} {es rest : List PortIn} {bs : List Byte},
    suppliedBytes k es = some (bs, rest) → bs.length = k
  | 0, _, _, _, h => by cases h; rfl
  | k + 1, _, _, _, h => by
    obtain ⟨b, bs', es', _, hs, rfl⟩ := suppliedBytes_succ h
    simp [suppliedBytes_length hs]

@[simp] theorem spanValue_nil (v : Nat) : spanValue v [] = v := rfl

@[simp] theorem spanValue_cons (v : Nat) (b : Byte) (bs : List Byte) :
    spanValue v (b :: bs) = spanValue (v * 256 + b.toNat) bs := rfl

/-- The digits in front of the bytes keep their weight. -/
theorem spanValue_eq_add (v : Nat) (bs : List Byte) :
    spanValue v bs = v * 2 ^ (8 * bs.length) + spanValue 0 bs := by
  induction bs generalizing v with
  | nil => simp
  | cons b bs ih =>
    rw [spanValue_cons, spanValue_cons, ih, ih (0 * 256 + b.toNat), List.length_cons,
      show 8 * (bs.length + 1) = 8 * bs.length + 8 by omega, Nat.pow_add]
    have : (2 : Nat) ^ 8 = 256 := rfl
    rw [this]
    generalize 2 ^ (8 * bs.length) = p
    simp only [Nat.add_mul, Nat.zero_mul, Nat.zero_add]
    rw [Nat.mul_assoc v 256 p, Nat.mul_comm 256 p]
    omega

/-- `k` bytes spell a number of `8 * k` bits. -/
theorem spanValue_lt (bs : List Byte) : spanValue 0 bs < 2 ^ (8 * bs.length) := by
  induction bs with
  | nil => simp
  | cons b bs ih =>
    rw [spanValue_cons, spanValue_eq_add, List.length_cons,
      show 8 * (bs.length + 1) = 8 + 8 * bs.length by omega, Nat.pow_add]
    have hb : b.toNat + 1 ≤ 2 ^ 8 := b.isLt
    calc (0 * 256 + b.toNat) * 2 ^ (8 * bs.length) + spanValue 0 bs
        < (b.toNat + 1) * 2 ^ (8 * bs.length) := by
          rw [Nat.zero_mul, Nat.zero_add, Nat.add_mul, Nat.one_mul]; omega
      _ ≤ 2 ^ 8 * 2 ^ (8 * bs.length) := Nat.mul_le_mul_right _ hb

/-- With a residue of `r` bits in front, `r + 8 * k` bits. -/
theorem spanValue_lt_of_lt {v r : Nat} (bs : List Byte) (hv : v < 2 ^ r) :
    spanValue v bs < 2 ^ (r + 8 * bs.length) := by
  rw [spanValue_eq_add, Nat.pow_add]
  have := spanValue_lt bs
  calc v * 2 ^ (8 * bs.length) + spanValue 0 bs < (v + 1) * 2 ^ (8 * bs.length) := by
        rw [Nat.add_mul, Nat.one_mul]; omega
    _ ≤ 2 ^ r * 2 ^ (8 * bs.length) := Nat.mul_le_mul_right _ hv

/-- Splitting a number at bit `a + d` and reading its digits from bit `d` on. -/
theorem split_div (hi lo a d : Nat) : (hi * 2 ^ (a + d) + lo) / 2 ^ d = hi * 2 ^ a + lo / 2 ^ d := by
  rw [Nat.pow_add, ← Nat.mul_assoc, Nat.add_comm, Nat.add_mul_div_right _ _ (Nat.two_pow_pos d),
    Nat.add_comm]

theorem split_mod (hi lo a d : Nat) : (hi * 2 ^ (a + d) + lo) % 2 ^ d = lo % 2 ^ d := by
  rw [Nat.pow_add, ← Nat.mul_assoc, Nat.add_comm, Nat.add_mul_mod_self_right]

end Sys2Proof.Machine
end

