-- ==== Sys2Proof/Laws/State.lean ====
section
/-! SUPPORT. What each shared update of State does to each field, one lemma a field, so that no later proof
unfolds a record update. -/

namespace Sys2Proof.Machine

@[simp] theorem respond_rbyte (v : Word) (s : State) : (respond v s).rbyte = s.rbyte := rfl
@[simp] theorem respond_rlen (v : Word) (s : State) : (respond v s).rlen = s.rlen := rfl
@[simp] theorem respond_phase (v : Word) (s : State) : (respond v s).phase = .resp := rfl
@[simp] theorem respond_acc (v : Word) (s : State) : (respond v s).acc = s.acc := rfl
@[simp] theorem respond_rem (v : Word) (s : State) : (respond v s).rem = s.rem := rfl
@[simp] theorem respond_cmdWord (v : Word) (s : State) : (respond v s).cmdWord = s.cmdWord := rfl
@[simp] theorem respond_cmdOperand (v : Word) (s : State) : (respond v s).cmdOperand = s.cmdOperand := rfl
@[simp] theorem respond_rspStatus (v : Word) (s : State) : (respond v s).rspStatus = .ok := rfl
@[simp] theorem respond_rspData (v : Word) (s : State) : (respond v s).rspData = v := rfl
@[simp] theorem respond_srcExhausted (v : Word) (s : State) : (respond v s).srcExhausted = s.srcExhausted := rfl
@[simp] theorem respond_stream (v : Word) (s : State) : (respond v s).stream = s.stream := rfl
@[simp] theorem respond_srcTaken (v : Word) (s : State) : (respond v s).srcTaken = s.srcTaken := rfl
@[simp] theorem respond_wasReset (v : Word) (s : State) : (respond v s).wasReset = s.wasReset := rfl
@[simp] theorem respond_drawn (v : Word) (s : State) : (respond v s).drawn = s.drawn := rfl
@[simp] theorem respond_inputs (v : Word) (s : State) : (respond v s).inputs = s.inputs := rfl

@[simp] theorem raise_rbyte (e : Status) (s : State) : (raise e s).rbyte = s.rbyte := rfl
@[simp] theorem raise_rlen (e : Status) (s : State) : (raise e s).rlen = s.rlen := rfl
@[simp] theorem raise_phase (e : Status) (s : State) : (raise e s).phase = .resp := rfl
@[simp] theorem raise_acc (e : Status) (s : State) : (raise e s).acc = s.acc := rfl
@[simp] theorem raise_rem (e : Status) (s : State) : (raise e s).rem = s.rem := rfl
@[simp] theorem raise_cmdWord (e : Status) (s : State) : (raise e s).cmdWord = s.cmdWord := rfl
@[simp] theorem raise_cmdOperand (e : Status) (s : State) : (raise e s).cmdOperand = s.cmdOperand := rfl
@[simp] theorem raise_rspStatus (e : Status) (s : State) : (raise e s).rspStatus = e := rfl
@[simp] theorem raise_rspData (e : Status) (s : State) : (raise e s).rspData = Config.freeRspData s.drawn := rfl
@[simp] theorem raise_srcExhausted (e : Status) (s : State) : (raise e s).srcExhausted = s.srcExhausted := rfl
@[simp] theorem raise_stream (e : Status) (s : State) : (raise e s).stream = s.stream := rfl
@[simp] theorem raise_srcTaken (e : Status) (s : State) : (raise e s).srcTaken = s.srcTaken := rfl
@[simp] theorem raise_wasReset (e : Status) (s : State) : (raise e s).wasReset = s.wasReset := rfl
@[simp] theorem raise_drawn (e : Status) (s : State) : (raise e s).drawn = s.drawn + 1 := rfl
@[simp] theorem raise_inputs (e : Status) (s : State) : (raise e s).inputs = s.inputs := rfl

@[simp] theorem takeByte_rbyte (b : Byte) (es : List PortIn) (s : State) : (takeByte b es s).rbyte = b := rfl
@[simp] theorem takeByte_rlen (b : Byte) (es : List PortIn) (s : State) : (takeByte b es s).rlen = 8 := rfl
@[simp] theorem takeByte_phase (b : Byte) (es : List PortIn) (s : State) : (takeByte b es s).phase = s.phase := rfl
@[simp] theorem takeByte_acc (b : Byte) (es : List PortIn) (s : State) : (takeByte b es s).acc = s.acc := rfl
@[simp] theorem takeByte_rem (b : Byte) (es : List PortIn) (s : State) : (takeByte b es s).rem = s.rem := rfl
@[simp] theorem takeByte_cmdWord (b : Byte) (es : List PortIn) (s : State) : (takeByte b es s).cmdWord = s.cmdWord := rfl
@[simp] theorem takeByte_cmdOperand (b : Byte) (es : List PortIn) (s : State) : (takeByte b es s).cmdOperand = s.cmdOperand := rfl
@[simp] theorem takeByte_rspStatus (b : Byte) (es : List PortIn) (s : State) : (takeByte b es s).rspStatus = s.rspStatus := rfl
@[simp] theorem takeByte_rspData (b : Byte) (es : List PortIn) (s : State) : (takeByte b es s).rspData = s.rspData := rfl
@[simp] theorem takeByte_srcExhausted (b : Byte) (es : List PortIn) (s : State) : (takeByte b es s).srcExhausted = s.srcExhausted := rfl
@[simp] theorem takeByte_stream (b : Byte) (es : List PortIn) (s : State) : (takeByte b es s).stream = s.stream ++ [b] := rfl
@[simp] theorem takeByte_srcTaken (b : Byte) (es : List PortIn) (s : State) : (takeByte b es s).srcTaken = s.srcTaken + 1 := rfl
@[simp] theorem takeByte_wasReset (b : Byte) (es : List PortIn) (s : State) : (takeByte b es s).wasReset = s.wasReset := rfl
@[simp] theorem takeByte_drawn (b : Byte) (es : List PortIn) (s : State) : (takeByte b es s).drawn = s.drawn := rfl
@[simp] theorem takeByte_inputs (b : Byte) (es : List PortIn) (s : State) : (takeByte b es s).inputs = es := rfl

@[simp] theorem setInputs_rbyte (es : List PortIn) (s : State) : (setInputs es s).rbyte = s.rbyte := rfl
@[simp] theorem setInputs_rlen (es : List PortIn) (s : State) : (setInputs es s).rlen = s.rlen := rfl
@[simp] theorem setInputs_phase (es : List PortIn) (s : State) : (setInputs es s).phase = s.phase := rfl
@[simp] theorem setInputs_acc (es : List PortIn) (s : State) : (setInputs es s).acc = s.acc := rfl
@[simp] theorem setInputs_rem (es : List PortIn) (s : State) : (setInputs es s).rem = s.rem := rfl
@[simp] theorem setInputs_cmdWord (es : List PortIn) (s : State) : (setInputs es s).cmdWord = s.cmdWord := rfl
@[simp] theorem setInputs_cmdOperand (es : List PortIn) (s : State) : (setInputs es s).cmdOperand = s.cmdOperand := rfl
@[simp] theorem setInputs_rspStatus (es : List PortIn) (s : State) : (setInputs es s).rspStatus = s.rspStatus := rfl
@[simp] theorem setInputs_rspData (es : List PortIn) (s : State) : (setInputs es s).rspData = s.rspData := rfl
@[simp] theorem setInputs_srcExhausted (es : List PortIn) (s : State) : (setInputs es s).srcExhausted = s.srcExhausted := rfl
@[simp] theorem setInputs_stream (es : List PortIn) (s : State) : (setInputs es s).stream = s.stream := rfl
@[simp] theorem setInputs_srcTaken (es : List PortIn) (s : State) : (setInputs es s).srcTaken = s.srcTaken := rfl
@[simp] theorem setInputs_wasReset (es : List PortIn) (s : State) : (setInputs es s).wasReset = s.wasReset := rfl
@[simp] theorem setInputs_drawn (es : List PortIn) (s : State) : (setInputs es s).drawn = s.drawn := rfl
@[simp] theorem setInputs_inputs (es : List PortIn) (s : State) : (setInputs es s).inputs = es := rfl

@[simp] theorem takeBits_rbyte (k : Nat) (s : State) :
    (takeBits k s).rbyte = s.rbyte &&& lowMask 8 (s.rlen - BitVec.ofNat 4 k).toNat := rfl
@[simp] theorem takeBits_rlen (k : Nat) (s : State) : (takeBits k s).rlen = s.rlen - BitVec.ofNat 4 k := rfl
@[simp] theorem takeBits_phase (k : Nat) (s : State) : (takeBits k s).phase = s.phase := rfl
@[simp] theorem takeBits_acc (k : Nat) (s : State) :
    (takeBits k s).acc = (s.acc <<< k) ||| (topChunk s.rbyte s.rlen.toNat k).setWidth 64 := rfl
@[simp] theorem takeBits_rem (k : Nat) (s : State) : (takeBits k s).rem = s.rem - BitVec.ofNat 7 k := rfl
@[simp] theorem takeBits_cmdWord (k : Nat) (s : State) : (takeBits k s).cmdWord = s.cmdWord := rfl
@[simp] theorem takeBits_cmdOperand (k : Nat) (s : State) : (takeBits k s).cmdOperand = s.cmdOperand := rfl
@[simp] theorem takeBits_rspStatus (k : Nat) (s : State) : (takeBits k s).rspStatus = s.rspStatus := rfl
@[simp] theorem takeBits_rspData (k : Nat) (s : State) : (takeBits k s).rspData = s.rspData := rfl
@[simp] theorem takeBits_srcExhausted (k : Nat) (s : State) : (takeBits k s).srcExhausted = s.srcExhausted := rfl
@[simp] theorem takeBits_stream (k : Nat) (s : State) : (takeBits k s).stream = s.stream := rfl
@[simp] theorem takeBits_srcTaken (k : Nat) (s : State) : (takeBits k s).srcTaken = s.srcTaken := rfl
@[simp] theorem takeBits_wasReset (k : Nat) (s : State) : (takeBits k s).wasReset = s.wasReset := rfl
@[simp] theorem takeBits_drawn (k : Nat) (s : State) : (takeBits k s).drawn = s.drawn := rfl
@[simp] theorem takeBits_inputs (k : Nat) (s : State) : (takeBits k s).inputs = s.inputs := rfl

@[simp] theorem beginRead_rbyte (n : Count) (s : State) : (beginRead n s).rbyte = s.rbyte := rfl
@[simp] theorem beginRead_rlen (n : Count) (s : State) : (beginRead n s).rlen = s.rlen := rfl
@[simp] theorem beginRead_phase (n : Count) (s : State) : (beginRead n s).phase = .busy := rfl
@[simp] theorem beginRead_acc (n : Count) (s : State) : (beginRead n s).acc = 0 := rfl
@[simp] theorem beginRead_rem (n : Count) (s : State) : (beginRead n s).rem = n := rfl
@[simp] theorem beginRead_cmdWord (n : Count) (s : State) : (beginRead n s).cmdWord = s.cmdWord := rfl
@[simp] theorem beginRead_cmdOperand (n : Count) (s : State) : (beginRead n s).cmdOperand = s.cmdOperand := rfl
@[simp] theorem beginRead_rspStatus (n : Count) (s : State) : (beginRead n s).rspStatus = s.rspStatus := rfl
@[simp] theorem beginRead_rspData (n : Count) (s : State) : (beginRead n s).rspData = s.rspData := rfl
@[simp] theorem beginRead_srcExhausted (n : Count) (s : State) : (beginRead n s).srcExhausted = s.srcExhausted := rfl
@[simp] theorem beginRead_stream (n : Count) (s : State) : (beginRead n s).stream = s.stream := rfl
@[simp] theorem beginRead_srcTaken (n : Count) (s : State) : (beginRead n s).srcTaken = s.srcTaken := rfl
@[simp] theorem beginRead_wasReset (n : Count) (s : State) : (beginRead n s).wasReset = s.wasReset := rfl
@[simp] theorem beginRead_drawn (n : Count) (s : State) : (beginRead n s).drawn = s.drawn := rfl
@[simp] theorem beginRead_inputs (n : Count) (s : State) : (beginRead n s).inputs = s.inputs := rfl

@[simp] theorem pastEdge_rbyte (s : State) : (pastEdge s).rbyte = s.rbyte := rfl
@[simp] theorem pastEdge_rlen (s : State) : (pastEdge s).rlen = s.rlen := rfl
@[simp] theorem pastEdge_phase (s : State) : (pastEdge s).phase = s.phase := rfl
@[simp] theorem pastEdge_acc (s : State) : (pastEdge s).acc = s.acc := rfl
@[simp] theorem pastEdge_rem (s : State) : (pastEdge s).rem = s.rem := rfl
@[simp] theorem pastEdge_cmdWord (s : State) : (pastEdge s).cmdWord = s.cmdWord := rfl
@[simp] theorem pastEdge_cmdOperand (s : State) : (pastEdge s).cmdOperand = s.cmdOperand := rfl
@[simp] theorem pastEdge_rspStatus (s : State) : (pastEdge s).rspStatus = s.rspStatus := rfl
@[simp] theorem pastEdge_rspData (s : State) : (pastEdge s).rspData = s.rspData := rfl
@[simp] theorem pastEdge_srcExhausted (s : State) : (pastEdge s).srcExhausted = s.srcExhausted := rfl
@[simp] theorem pastEdge_stream (s : State) : (pastEdge s).stream = s.stream := rfl
@[simp] theorem pastEdge_srcTaken (s : State) : (pastEdge s).srcTaken = s.srcTaken := rfl
@[simp] theorem pastEdge_wasReset (s : State) : (pastEdge s).wasReset = s.wasReset := rfl
@[simp] theorem pastEdge_drawn (s : State) : (pastEdge s).drawn = s.drawn := rfl
@[simp] theorem pastEdge_inputs (s : State) : (pastEdge s).inputs = s.inputs.tail := rfl

@[simp] theorem accept_rbyte (e : PortIn) (s : State) : (accept e s).rbyte = s.rbyte := rfl
@[simp] theorem accept_rlen (e : PortIn) (s : State) : (accept e s).rlen = s.rlen := rfl
@[simp] theorem accept_phase (e : PortIn) (s : State) : (accept e s).phase = .busy := rfl
@[simp] theorem accept_acc (e : PortIn) (s : State) : (accept e s).acc = s.acc := rfl
@[simp] theorem accept_rem (e : PortIn) (s : State) : (accept e s).rem = s.rem := rfl
@[simp] theorem accept_cmdWord (e : PortIn) (s : State) : (accept e s).cmdWord = e.cmdWord := rfl
@[simp] theorem accept_cmdOperand (e : PortIn) (s : State) : (accept e s).cmdOperand = e.cmdOperand := rfl
@[simp] theorem accept_rspStatus (e : PortIn) (s : State) : (accept e s).rspStatus = s.rspStatus := rfl
@[simp] theorem accept_rspData (e : PortIn) (s : State) : (accept e s).rspData = s.rspData := rfl
@[simp] theorem accept_srcExhausted (e : PortIn) (s : State) : (accept e s).srcExhausted = e.srcExhausted := rfl
@[simp] theorem accept_stream (e : PortIn) (s : State) : (accept e s).stream = s.stream := rfl
@[simp] theorem accept_srcTaken (e : PortIn) (s : State) : (accept e s).srcTaken = s.srcTaken := rfl
@[simp] theorem accept_wasReset (e : PortIn) (s : State) : (accept e s).wasReset = s.wasReset := rfl
@[simp] theorem accept_drawn (e : PortIn) (s : State) : (accept e s).drawn = s.drawn := rfl
@[simp] theorem accept_inputs (e : PortIn) (s : State) : (accept e s).inputs = s.inputs := rfl

@[simp] theorem deliver_rbyte (s : State) : (deliver s).rbyte = s.rbyte := rfl
@[simp] theorem deliver_rlen (s : State) : (deliver s).rlen = s.rlen := rfl
@[simp] theorem deliver_phase (s : State) : (deliver s).phase = .idle := rfl
@[simp] theorem deliver_acc (s : State) : (deliver s).acc = Config.freeAcc s.drawn := rfl
@[simp] theorem deliver_rem (s : State) : (deliver s).rem = Config.freeRem s.drawn := rfl
@[simp] theorem deliver_cmdWord (s : State) : (deliver s).cmdWord = Config.freeCmdWord s.drawn := rfl
@[simp] theorem deliver_cmdOperand (s : State) : (deliver s).cmdOperand = Config.freeCmdOperand s.drawn := rfl
@[simp] theorem deliver_rspStatus (s : State) : (deliver s).rspStatus = Config.freeRspStatus s.drawn := rfl
@[simp] theorem deliver_rspData (s : State) : (deliver s).rspData = Config.freeRspData s.drawn := rfl
@[simp] theorem deliver_srcExhausted (s : State) : (deliver s).srcExhausted = s.srcExhausted := rfl
@[simp] theorem deliver_stream (s : State) : (deliver s).stream = s.stream := rfl
@[simp] theorem deliver_srcTaken (s : State) : (deliver s).srcTaken = s.srcTaken := rfl
@[simp] theorem deliver_wasReset (s : State) : (deliver s).wasReset = s.wasReset := rfl
@[simp] theorem deliver_drawn (s : State) : (deliver s).drawn = s.drawn + 1 := rfl
@[simp] theorem deliver_inputs (s : State) : (deliver s).inputs = s.inputs := rfl

@[simp] theorem resetEdge_rbyte (e : PortIn) (s : State) : (resetEdge e s).rbyte = Config.freeRbyte s.drawn := rfl
@[simp] theorem resetEdge_rlen (e : PortIn) (s : State) : (resetEdge e s).rlen = 0 := rfl
@[simp] theorem resetEdge_phase (e : PortIn) (s : State) : (resetEdge e s).phase = .idle := rfl
@[simp] theorem resetEdge_acc (e : PortIn) (s : State) : (resetEdge e s).acc = Config.freeAcc s.drawn := rfl
@[simp] theorem resetEdge_rem (e : PortIn) (s : State) : (resetEdge e s).rem = Config.freeRem s.drawn := rfl
@[simp] theorem resetEdge_cmdWord (e : PortIn) (s : State) : (resetEdge e s).cmdWord = Config.freeCmdWord s.drawn := rfl
@[simp] theorem resetEdge_cmdOperand (e : PortIn) (s : State) : (resetEdge e s).cmdOperand = Config.freeCmdOperand s.drawn := rfl
@[simp] theorem resetEdge_rspStatus (e : PortIn) (s : State) : (resetEdge e s).rspStatus = Config.freeRspStatus s.drawn := rfl
@[simp] theorem resetEdge_rspData (e : PortIn) (s : State) : (resetEdge e s).rspData = Config.freeRspData s.drawn := rfl
@[simp] theorem resetEdge_srcExhausted (e : PortIn) (s : State) : (resetEdge e s).srcExhausted = s.srcExhausted := rfl
@[simp] theorem resetEdge_stream (e : PortIn) (s : State) : (resetEdge e s).stream = [] := rfl
@[simp] theorem resetEdge_srcTaken (e : PortIn) (s : State) : (resetEdge e s).srcTaken = takenAtReset e s := rfl
@[simp] theorem resetEdge_wasReset (e : PortIn) (s : State) : (resetEdge e s).wasReset = true := rfl
@[simp] theorem resetEdge_drawn (e : PortIn) (s : State) : (resetEdge e s).drawn = s.drawn + 1 := rfl
@[simp] theorem resetEdge_inputs (e : PortIn) (s : State) : (resetEdge e s).inputs = s.inputs := rfl

end Sys2Proof.Machine
end

