-- ==== Sys2Proof/Laws/Ops.lean ====
section
/-! SUPPORT. What the shared operations do: one iteration of the extraction loop as arithmetic
(41_read_unsigned.md R93), the loop over the bytes the source supplies (R94), over a source that fails or
stays silent (R98), and how many iterations it needs (R92). -/

namespace Sys2Proof.Machine

/-- The shift and mask of step (b) take the top `k` bits (R90, "equivalent arithmetic"). -/
theorem topChunk_toNat (b : Byte) {r k : Nat} (hk : k ≤ 8) :
    (topChunk b r k).toNat = b.toNat / 2 ^ (r - k) % 2 ^ k := by
  have h1 : 2 ^ k ≤ 2 ^ 8 := Nat.pow_le_pow_right (by omega) hk
  have h2 : 0 < 2 ^ k := Nat.two_pow_pos k
  rw [topChunk, lowMask, BitVec.toNat_and, BitVec.toNat_ofNat, BitVec.toNat_ushiftRight,
    Nat.shiftRight_eq_div_pow, Nat.mod_eq_of_lt (by omega), Nat.and_two_pow_sub_one_eq_mod]

/-- Masking to the low `k` bits (R7, R90 step (d)). -/
theorem and_lowMask_toNat (b : Byte) {k : Nat} (hk : k ≤ 8) : (b &&& lowMask 8 k).toNat = b.toNat % 2 ^ k := by
  have h1 : 2 ^ k ≤ 2 ^ 8 := Nat.pow_le_pow_right (by omega) hk
  have h2 : 0 < 2 ^ k := Nat.two_pow_pos k
  rw [lowMask, BitVec.toNat_and, BitVec.toNat_ofNat, Nat.mod_eq_of_lt (by omega),
    Nat.and_two_pow_sub_one_eq_mod]

/-- Step (c): no bit of `ACC` is lost and the OR is an addition (R93). -/
theorem shiftIn_toNat (acc : Word) (c : Byte) {k m : Nat} (hkm : k ≤ m) (hm : m ≤ 64)
    (ha : acc.toNat < 2 ^ (64 - m)) (hc : c.toNat < 2 ^ k) :
    ((acc <<< k) ||| c.setWidth 64).toNat = acc.toNat * 2 ^ k + c.toNat := by
  have h1 : acc.toNat * 2 ^ k < 2 ^ 64 := by
    calc acc.toNat * 2 ^ k < 2 ^ (64 - m) * 2 ^ k := Nat.mul_lt_mul_of_pos_right ha (Nat.two_pow_pos k)
      _ = 2 ^ (64 - m + k) := (Nat.pow_add ..).symm
      _ ≤ 2 ^ 64 := Nat.pow_le_pow_right (by omega) (by omega)
  rw [BitVec.toNat_or, BitVec.toNat_shiftLeft, BitVec.toNat_setWidth, Nat.shiftLeft_eq,
    Nat.mod_eq_of_lt h1, Nat.mod_eq_of_lt (Nat.lt_of_lt_of_le c.isLt (by decide))]
  rw [Nat.mul_comm, Nat.two_pow_add_eq_or_of_lt hc]

/-- What the loop needs of a state to be arithmetic: R22 at every instant, and room in `ACC` (R93). -/
structure LoopReady (s : State) : Prop where
  rlen : s.rlen.toNat ≤ 8
  rbyte : 1 ≤ s.rlen.toNat → s.rbyte.toNat < 2 ^ s.rlen.toNat
  rem : s.rem.toNat ≤ 64
  acc : s.acc.toNat < 2 ^ (64 - s.rem.toNat)

theorem LoopReady.residue {s : State} (h : LoopReady s) (hr : 1 ≤ s.rlen.toNat) :
    s.residue = s.rbyte.toNat := Nat.mod_eq_of_lt (h.rbyte hr)

theorem residue_lt (s : State) : s.residue < 2 ^ s.rlen.toNat := Nat.mod_lt _ (Nat.two_pow_pos _)

theorem chunkSize_le_rlen (s : State) : chunkSize s ≤ s.rlen.toNat := Nat.min_le_left ..

theorem chunkSize_le_rem (s : State) : chunkSize s ≤ s.rem.toNat := Nat.min_le_right ..

theorem takeChunk_rlen_toNat (s : State) : (takeChunk s).rlen.toNat = s.rlen.toNat - chunkSize s := by
  have h := chunkSize_le_rlen s
  have := s.rlen.isLt
  rw [takeChunk, takeBits_rlen, BitVec.toNat_sub_of_le]
  · rw [BitVec.toNat_ofNat, Nat.mod_eq_of_lt (by omega)]
  · rw [BitVec.le_def, BitVec.toNat_ofNat, Nat.mod_eq_of_lt (by omega)]; exact h

theorem takeChunk_rem_toNat (s : State) : (takeChunk s).rem.toNat = s.rem.toNat - chunkSize s := by
  have h := chunkSize_le_rem s
  have := s.rem.isLt
  rw [takeChunk, takeBits_rem, BitVec.toNat_sub_of_le]
  · rw [BitVec.toNat_ofNat, Nat.mod_eq_of_lt (by omega)]
  · rw [BitVec.le_def, BitVec.toNat_ofNat, Nat.mod_eq_of_lt (by omega)]; exact h

theorem takeChunk_rbyte_toNat {s : State} (h : LoopReady s) :
    (takeChunk s).rbyte.toNat = s.rbyte.toNat % 2 ^ (s.rlen.toNat - chunkSize s) := by
  have h8 := h.rlen
  have hr := takeChunk_rlen_toNat s
  rw [takeChunk, takeBits_rlen] at hr
  rw [takeChunk, takeBits_rbyte, hr, and_lowMask_toNat _ (by omega)]

theorem takeChunk_acc_toNat {s : State} (h : LoopReady s) (hr : 1 ≤ s.rlen.toNat) :
    (takeChunk s).acc.toNat =
      s.acc.toNat * 2 ^ chunkSize s + s.rbyte.toNat / 2 ^ (s.rlen.toNat - chunkSize s) := by
  have h8 := h.rlen
  have hk := chunkSize_le_rlen s
  have hlt : s.rbyte.toNat / 2 ^ (s.rlen.toNat - chunkSize s) < 2 ^ chunkSize s := by
    apply Nat.div_lt_of_lt_mul
    rw [← Nat.pow_add, show s.rlen.toNat - chunkSize s + chunkSize s = s.rlen.toNat by omega]
    exact h.rbyte hr
  have hc : (topChunk s.rbyte s.rlen.toNat (chunkSize s)).toNat =
      s.rbyte.toNat / 2 ^ (s.rlen.toNat - chunkSize s) := by
    rw [topChunk_toNat _ (by omega), Nat.mod_eq_of_lt hlt]
  rw [takeChunk, takeBits_acc, shiftIn_toNat _ _ (chunkSize_le_rem s) h.rem h.acc (by omega), hc]

/-- One iteration keeps the loop's arithmetic sound (R93). -/
theorem LoopReady.takeChunk {s : State} (h : LoopReady s) (hr : 1 ≤ s.rlen.toNat) : LoopReady (takeChunk s) := by
  have hk := chunkSize_le_rlen s
  have hm := chunkSize_le_rem s
  have h64 := h.rem
  refine ⟨?_, fun _ => ?_, ?_, ?_⟩
  · rw [takeChunk_rlen_toNat]; have := h.rlen; omega
  · rw [takeChunk_rbyte_toNat h, takeChunk_rlen_toNat]; exact Nat.mod_lt _ (Nat.two_pow_pos _)
  · rw [takeChunk_rem_toNat]; omega
  · have hlt : s.rbyte.toNat / 2 ^ (s.rlen.toNat - chunkSize s) < 2 ^ chunkSize s := by
      apply Nat.div_lt_of_lt_mul
      rw [← Nat.pow_add, show s.rlen.toNat - chunkSize s + chunkSize s = s.rlen.toNat by omega]
      exact h.rbyte hr
    rw [takeChunk_acc_toNat h hr, takeChunk_rem_toNat,
      show 64 - (s.rem.toNat - chunkSize s) = 64 - s.rem.toNat + chunkSize s by omega, Nat.pow_add]
    calc s.acc.toNat * 2 ^ chunkSize s + s.rbyte.toNat / 2 ^ (s.rlen.toNat - chunkSize s)
        < (s.acc.toNat + 1) * 2 ^ chunkSize s := by rw [Nat.add_mul, Nat.one_mul]; omega
      _ ≤ 2 ^ (64 - s.rem.toNat) * 2 ^ chunkSize s := Nat.mul_le_mul_right _ h.acc

/-- A fetched byte is a residue of 8 bits (R22). -/
theorem LoopReady.takeByte {s : State} (h : LoopReady s) (b : Byte) (es : List PortIn) :
    LoopReady (takeByte b es s) :=
  ⟨by simp, fun _ => b.isLt, h.rem, h.acc⟩

theorem rlen_eq_zero_iff (s : State) : s.rlen = 0 ↔ s.rlen.toNat = 0 := by
  rw [← BitVec.toNat_inj]; simp

theorem rem_eq_zero_iff (s : State) : s.rem = 0 ↔ s.rem.toNat = 0 := by
  rw [← BitVec.toNat_inj]; simp

/-! The loop, iteration by iteration. -/

theorem readLoop_done {s : State} (f : Nat) (h : s.rem.toNat = 0) : readLoop f s = .go s := by
  cases f with
  | zero => rfl
  | succ f => rw [readLoop, if_pos ((rem_eq_zero_iff s).2 h)]

theorem readLoop_residue {s : State} (f : Nat) (hm : 1 ≤ s.rem.toNat) (hr : 1 ≤ s.rlen.toNat) :
    readLoop (f + 1) s = readLoop f (takeChunk s) := by
  rw [readLoop, if_neg (by rw [rem_eq_zero_iff]; omega), refill, if_neg (by rw [rlen_eq_zero_iff]; omega)]

theorem readLoop_byte {s : State} {b : Byte} {es : List PortIn} (f : Nat) (hm : 1 ≤ s.rem.toNat)
    (hr : s.rlen.toNat = 0) (he : awaitReply s.inputs = .reply (.byte b) es) :
    readLoop (f + 1) s = readLoop f (takeChunk (takeByte b es s)) := by
  rw [readLoop, if_neg (by rw [rem_eq_zero_iff]; omega), refill, if_pos ((rlen_eq_zero_iff s).2 hr), srcFetch, he]

theorem readLoop_fail {s : State} {es : List PortIn} (f : Nat) (hm : 1 ≤ s.rem.toNat)
    (hr : s.rlen.toNat = 0) (he : awaitReply s.inputs = .reply .fail es) :
    readLoop (f + 1) s = .failed (setInputs es s) := by
  rw [readLoop, if_neg (by rw [rem_eq_zero_iff]; omega), refill, if_pos ((rlen_eq_zero_iff s).2 hr), srcFetch, he]

theorem readLoop_silent {s : State} {es : List PortIn} (f : Nat) (hm : 1 ≤ s.rem.toNat)
    (hr : s.rlen.toNat = 0) (he : awaitReply s.inputs = .silent es) :
    readLoop (f + 1) s = .waiting (setInputs es s) := by
  rw [readLoop, if_neg (by rw [rem_eq_zero_iff]; omega), refill, if_pos ((rlen_eq_zero_iff s).2 hr), srcFetch, he]

theorem chunkSize_pos {s : State} (hm : 1 ≤ s.rem.toNat) (hr : 1 ≤ s.rlen.toNat) : 1 ≤ chunkSize s :=
  Nat.le_min.2 ⟨hr, hm⟩

/-- The bound on the iterations does not matter once it reaches `REM` (R92: every iteration takes a bit). -/
theorem readLoop_fuel : ∀ (f : Nat) (s : State), s.rem.toNat ≤ f → readLoop f s = readLoop s.rem.toNat s
  | 0, s, h => by rw [Nat.le_zero.mp h]
  | f + 1, s, h => by
    obtain h0 | hm := Nat.eq_zero_or_pos s.rem.toNat
    · rw [readLoop_done _ h0, readLoop_done _ h0]
    obtain ⟨g, hg⟩ : ∃ g, s.rem.toNat = g + 1 := ⟨s.rem.toNat - 1, by omega⟩
    have key : ∀ t : State, t.rem = s.rem → 1 ≤ t.rlen.toNat →
        readLoop f (takeChunk t) = readLoop g (takeChunk t) := by
      intro t ht hr
      have hk := chunkSize_pos (s := t) (by rw [ht]; exact hm) hr
      have h1 := takeChunk_rem_toNat t
      rw [ht] at h1
      rw [readLoop_fuel f _ (by omega), readLoop_fuel g _ (by omega)]
    rw [hg]
    obtain hr | hr := Nat.eq_zero_or_pos s.rlen.toNat
    · cases he : awaitReply s.inputs with
      | silent es => rw [readLoop_silent f hm hr he, readLoop_silent g hm hr he]
      | reply r es =>
        cases r with
        | fail => rw [readLoop_fail f hm hr he, readLoop_fail g hm hr he]
        | byte b => rw [readLoop_byte f hm hr he, readLoop_byte g hm hr he, key (takeByte b es s) rfl (by simp)]
    · rw [readLoop_residue f hm hr, readLoop_residue g hm hr, key s rfl hr]
termination_by f => f

end Sys2Proof.Machine
end

