-- ==== Sys2Proof/Laws/PerInstr.lean ====
section
/-! SUPPORT. Statements made for every instruction, one lemma a constructor: the encoder agrees with the rows
of spec/opcode_table.json (30_encoding.md R62). -/

namespace Sys2Proof.Laws.TableRow

/-- The command word has the row's fixed bits. -/
def Statement (i : Instr) : Prop := encode i &&& i.tableMask = i.tableMatch

theorem atEnd : Statement .atEnd := by unfold Statement; decide

theorem readUnsigned (n : Count) : Statement (.readUnsigned n) := by
  unfold Statement; revert n; decide

theorem readByte : Statement .readByte := by unfold Statement; decide

theorem readSigned (n : Count) : Statement (.readSigned n) := by
  unfold Statement; revert n; decide

theorem align : Statement .align := by unfold Statement; decide

theorem clz : Statement .clz := by unfold Statement; decide

end Sys2Proof.Laws.TableRow
end

