-- ==== Sys2Proof/Laws/Read.lean ====
section
/-! SUPPORT. The extraction loop in closed form (41_read_unsigned.md R94, R95), and where a source that
fails or stays silent leaves it (R98; 70_reset_and_hazards.md R180). -/

namespace Sys2Proof.Machine

/-- A state that differs from `s` in what a read writes. -/
def readState (s : State) (rbyte : Byte) (rlen : ResidueLen) (acc : Word) (rem : Count) (bs : List Byte)
    (rest : List PortIn) : State :=
  { s with
    rbyte := rbyte, rlen := rlen, acc := acc, rem := rem, stream := s.stream ++ bs
    srcTaken := s.srcTaken + bs.length, inputs := rest }

/-- The numbers of one iteration that has a residue to take from. -/
theorem span_of_chunk {s : State} (h : LoopReady s) (hr : 1 ≤ s.rlen.toNat) (bs : List Byte) :
    spanValue s.residue bs =
      s.rbyte.toNat / 2 ^ (s.rlen.toNat - chunkSize s) *
          2 ^ (s.rlen.toNat - chunkSize s + 8 * bs.length) +
        spanValue (takeChunk s).residue bs := by
  have h1 : (takeChunk s).residue = s.rbyte.toNat % 2 ^ (s.rlen.toNat - chunkSize s) := by
    rw [State.residue, takeChunk_rbyte_toNat h, takeChunk_rlen_toNat, Nat.mod_mod]
  rw [h.residue hr, spanValue_eq_add, spanValue_eq_add (takeChunk s).residue, h1, Nat.pow_add, ← Nat.mul_assoc,
    ← Nat.add_assoc, ← Nat.add_mul, Nat.div_add_mod']

theorem readFetches_chunk {r m k : Nat} (hr : k ≤ r) :
    readFetches (r - k) (m - k) = readFetches r m := by
  rw [readFetches, readFetches, show m - k - (r - k) = m - r by omega]

theorem readLeftover_chunk {r m k : Nat} (hr : k ≤ r) (hm : k ≤ m) :
    readLeftover (r - k) (m - k) = readLeftover r m := by
  rw [readLeftover, readLeftover, readFetches_chunk hr]; omega

/-- Before the first fetch of a byte the loop is as with the byte in the residue. -/
theorem readFetches_byte {m : Nat} (hm : 1 ≤ m) : readFetches 0 m = readFetches 8 m + 1 := by
  simp only [readFetches, fetchesFor]; omega

theorem readLeftover_byte {m : Nat} (hm : 1 ≤ m) : readLeftover 0 m = readLeftover 8 m := by
  simp only [readLeftover, readFetches_byte hm]; omega

/-- What is left after a read fits in a byte (R94: 0 to 7, or what was there). -/
theorem readLeftover_le {r m : Nat} (hr : r ≤ 8) : readLeftover r m ≤ 8 := by
  simp only [readLeftover, readFetches, fetchesFor]; omega

theorem readLeftover_le_seven {r m : Nat} (hr : r ≤ 7) : readLeftover r m ≤ 7 := by
  simp only [readLeftover, readFetches, fetchesFor]; omega

theorem residue_empty {s : State} (h : s.rlen.toNat = 0) : s.residue = 0 := by
  rw [State.residue, h, Nat.pow_zero, Nat.mod_one]

theorem takeByte_residue (b : Byte) (es : List PortIn) (s : State) : (takeByte b es s).residue = b.toNat :=
  Nat.mod_eq_of_lt b.isLt

/-- The loop with nothing left to take. -/
theorem readLoop_supplied_done {s : State} {bs : List Byte} {rest : List PortIn} (f : Nat)
    (hm : s.rem.toNat = 0)
    (hs : suppliedBytes (readFetches s.rlen.toNat s.rem.toNat) s.inputs = some (bs, rest)) :
    ∃ rb acc, readLoop f s =
        .go (readState s rb (BitVec.ofNat 4 (readLeftover s.rlen.toNat s.rem.toNat)) acc 0 bs rest) ∧
      acc.toNat = s.acc.toNat * 2 ^ s.rem.toNat + readValue s s.rem.toNat bs ∧
      (s.rem.toNat ≠ 0 → rb.toNat = readResidue s s.rem.toNat bs) ∧
      (s.rem.toNat = 0 → rb = s.rbyte) := by
  have hF : readFetches s.rlen.toNat s.rem.toNat = 0 := by simp [readFetches, fetchesFor, hm]
  have hL : readLeftover s.rlen.toNat s.rem.toNat = s.rlen.toNat := by
    rw [readLeftover, hF, hm]; omega
  rw [hF] at hs
  cases hs
  refine ⟨s.rbyte, s.acc, ?_, ?_, fun h0 => absurd hm h0, fun _ => rfl⟩
  · rw [readLoop_done _ hm, hL, BitVec.ofNat_toNat, BitVec.setWidth_eq]
    simp [readState, ← (rem_eq_zero_iff s).2 hm]
  · rw [readValue, hL, hm, readSpan, spanValue_nil, Nat.div_eq_of_lt (residue_lt s)]; simp

/-- The loop over the bytes the source supplies (R94): it goes through, brings the top bits of `T` into
`ACC`, leaves the low bits in the residue, and touches nothing else. -/
theorem readLoop_supplied : ∀ (f : Nat) (s : State) (bs : List Byte) (rest : List PortIn),
    LoopReady s → s.rem.toNat ≤ f →
    suppliedBytes (readFetches s.rlen.toNat s.rem.toNat) s.inputs = some (bs, rest) →
    ∃ rb acc, readLoop f s =
        .go (readState s rb (BitVec.ofNat 4 (readLeftover s.rlen.toNat s.rem.toNat)) acc 0 bs rest) ∧
      acc.toNat = s.acc.toNat * 2 ^ s.rem.toNat + readValue s s.rem.toNat bs ∧
      (s.rem.toNat ≠ 0 → rb.toNat = readResidue s s.rem.toNat bs) ∧
      (s.rem.toNat = 0 → rb = s.rbyte) := by
  intro f
  induction f with
  | zero =>
    intro s bs rest h hf hs
    have hm : s.rem.toNat = 0 := by omega
    exact readLoop_supplied_done 0 hm hs
  | succ f ih =>
    intro s bs rest h hf hs
    obtain hm | hm := Nat.eq_zero_or_pos s.rem.toNat
    · exact readLoop_supplied_done _ hm hs
    have key : ∀ (t : State) (bs' : List Byte), LoopReady t → 1 ≤ t.rlen.toNat → t.rem = s.rem →
        suppliedBytes (readFetches t.rlen.toNat t.rem.toNat) t.inputs = some (bs', rest) →
        ∃ rb acc, readLoop f (takeChunk t) =
            .go (readState t rb (BitVec.ofNat 4 (readLeftover t.rlen.toNat t.rem.toNat)) acc 0 bs' rest) ∧
          acc.toNat = t.acc.toNat * 2 ^ t.rem.toNat + readValue t t.rem.toNat bs' ∧
          rb.toNat = readResidue t t.rem.toNat bs' := by
      intro t bs' ht htr htm hts
      have hm' : 1 ≤ t.rem.toNat := by rw [htm]; exact hm
      have hk := chunkSize_pos hm' htr
      have hkr := chunkSize_le_rlen t
      have hkm := chunkSize_le_rem t
      have hlen := suppliedBytes_length hts
      have e1 := takeChunk_rlen_toNat t
      have e2 := takeChunk_rem_toNat t
      have hlo : readLeftover t.rlen.toNat t.rem.toNat + (t.rem.toNat - chunkSize t) =
          t.rlen.toNat - chunkSize t + 8 * bs'.length := by
        rw [hlen]; simp only [readLeftover, readFetches, fetchesFor]; omega
      obtain ⟨rb, acc, hl, ha, hb, hb0⟩ := ih (takeChunk t) bs' rest (ht.takeChunk htr)
        (by rw [e2]; rw [htm]; rw [htm] at hkm; omega)
        (by rw [e1, e2, readFetches_chunk hkr]; exact hts)
      rw [e1, e2, readLeftover_chunk hkr hkm] at hl
      have hspan := span_of_chunk ht htr bs'
      rw [← hlo, Nat.add_comm (readLeftover _ _)] at hspan
      refine ⟨rb, acc, by rw [hl]; rfl, ?_, ?_⟩
      · rw [ha, e2, takeChunk_acc_toNat ht htr, readValue, readValue, readSpan, readSpan, hspan, e1,
          readLeftover_chunk hkr hkm, split_div, ← Nat.add_assoc, Nat.add_mul, Nat.mul_assoc, ← Nat.pow_add,
          show chunkSize t + (t.rem.toNat - chunkSize t) = t.rem.toNat by omega]
      · have hT : readResidue t t.rem.toNat bs' = readResidue (takeChunk t) (t.rem.toNat - chunkSize t) bs' := by
          rw [readResidue, readResidue, readSpan, readSpan, hspan, e1, readLeftover_chunk hkr hkm, split_mod]
        rw [hT]
        by_cases h0 : (takeChunk t).rem.toNat = 0
        · have hz : readFetches t.rlen.toNat t.rem.toNat = 0 := by
            rw [e2] at h0; simp only [readFetches, fetchesFor]; omega
          have hnil : bs' = [] := List.length_eq_zero_iff.1 (hlen.trans hz)
          have h8 : t.rlen.toNat ≤ 8 := ht.rlen
          rw [hb0 h0, hnil, readResidue, readSpan, spanValue_nil, e1, readLeftover_chunk hkr hkm, State.residue,
            takeChunk_rbyte_toNat ht, e1, Nat.mod_mod, readLeftover, hz]
          rw [e2] at h0
          rw [show t.rlen.toNat + 8 * 0 - t.rem.toNat = t.rlen.toNat - chunkSize t by omega, Nat.mod_mod]
        · rw [hb h0, e2]
    obtain hr | hr := Nat.eq_zero_or_pos s.rlen.toNat
    · rw [hr, readFetches_byte hm] at hs
      obtain ⟨b, bs', es', he, hs', rfl⟩ := suppliedBytes_succ hs
      obtain ⟨rb, acc, hl, ha, hb⟩ := key (takeByte b es' s) bs' (h.takeByte b es') (by simp) rfl hs'
      have hT : readSpan (takeByte b es' s) bs' = readSpan s (b :: bs') := by
        rw [readSpan, readSpan, takeByte_residue, residue_empty hr, spanValue_cons, Nat.zero_mul, Nat.zero_add]
      have hlo : readLeftover (takeByte b es' s).rlen.toNat s.rem.toNat = readLeftover s.rlen.toNat s.rem.toNat := by
        rw [hr, readLeftover_byte hm]; rfl
      refine ⟨rb, acc, ?_, ?_, fun _ => ?_, fun h0 => by omega⟩
      · rw [takeByte_rem, hlo] at hl
        rw [readLoop_byte f hm hr he, hl]
        simp only [readState, takeByte, List.append_assoc, List.singleton_append,
          List.length_cons]
        congr 2
        omega
      · rw [ha, readValue, readValue, hT]
        simp only [takeByte_rem, takeByte_acc, hlo]
      · rw [hb, readResidue, readResidue, hT]
        simp only [takeByte_rem, hlo]
    · obtain ⟨rb, acc, hl, ha, hb⟩ := key s bs h hr rfl hs
      exact ⟨rb, acc, by rw [readLoop_residue f hm hr, hl], ha, fun _ => hb, fun h0 => by omega⟩
/-- A read whose residue and first `j` bytes do not bring all its bits comes to stand before its next fetch
with nothing in the residue and all of them in `ACC` (R92, R98). -/
theorem readLoop_drained : ∀ (f : Nat) (s : State) (j : Nat) (bs : List Byte) (rest : List PortIn),
    LoopReady s → s.rem.toNat ≤ f → j < readFetches s.rlen.toNat s.rem.toNat →
    suppliedBytes j s.inputs = some (bs, rest) →
    ∃ g rb acc, readLoop f s = readLoop (g + 1)
        (readState s rb 0 acc (BitVec.ofNat 7 (s.rem.toNat - (s.rlen.toNat + 8 * j))) bs rest) ∧
      s.rem.toNat - (s.rlen.toNat + 8 * j) ≤ g + 1 ∧
      1 ≤ s.rem.toNat - (s.rlen.toNat + 8 * j) ∧
      acc.toNat = s.acc.toNat * 2 ^ (s.rlen.toNat + 8 * j) + readSpan s bs := by
  intro f
  induction f with
  | zero =>
    intro s j bs rest _ hf hj _
    have hm : s.rem.toNat = 0 := by omega
    simp [readFetches, fetchesFor, hm] at hj
  | succ f ih =>
    intro s j bs rest h hf hj hs
    have hmr : s.rlen.toNat + 8 * j < s.rem.toNat := by
      simp only [readFetches, fetchesFor] at hj; omega
    have key : ∀ (t : State) (i : Nat) (bs' : List Byte), LoopReady t → 1 ≤ t.rlen.toNat → t.rem = s.rem →
        t.rlen.toNat + 8 * i < t.rem.toNat → suppliedBytes i t.inputs = some (bs', rest) →
        ∃ g rb acc, readLoop f (takeChunk t) = readLoop (g + 1)
            (readState t rb 0 acc (BitVec.ofNat 7 (t.rem.toNat - (t.rlen.toNat + 8 * i))) bs' rest) ∧
          t.rem.toNat - (t.rlen.toNat + 8 * i) ≤ g + 1 ∧
          1 ≤ t.rem.toNat - (t.rlen.toNat + 8 * i) ∧
          acc.toNat = t.acc.toNat * 2 ^ (t.rlen.toNat + 8 * i) + readSpan t bs' := by
      intro t i bs' ht htr htm hti hts
      have hk : chunkSize t = t.rlen.toNat := Nat.min_eq_left (by omega)
      have e1 := takeChunk_rlen_toNat t
      have e2 := takeChunk_rem_toNat t
      have hlen := suppliedBytes_length hts
      have hspan := span_of_chunk ht htr bs'
      have hacc := takeChunk_acc_toNat ht htr
      rw [hk] at e1 e2 hspan hacc
      rw [Nat.sub_self] at e1 hspan hacc
      obtain ⟨g, rb, acc, hl, h1, h2, ha⟩ := ih (takeChunk t) i bs' rest (ht.takeChunk htr)
        (by rw [htm] at e2 hti; omega)
        (by rw [e1, e2]; simp only [readFetches, fetchesFor]; omega) hts
      have e3 : t.rem.toNat - t.rlen.toNat - (0 + 8 * i) = t.rem.toNat - (t.rlen.toNat + 8 * i) := by omega
      rw [e1, e2, e3] at hl h1 h2
      refine ⟨g, rb, acc, by rw [hl]; rfl, h1, h2, ?_⟩
      rw [ha, e1, hacc, readSpan, readSpan, hspan, hlen]
      simp only [Nat.pow_zero, Nat.div_one, Nat.zero_add]
      rw [← Nat.add_assoc, Nat.add_mul, Nat.mul_assoc, ← Nat.pow_add]
    obtain hr | hr := Nat.eq_zero_or_pos s.rlen.toNat
    · cases j with
      | zero =>
        cases hs
        refine ⟨f, s.rbyte, s.acc, ?_, by omega, by omega, ?_⟩
        · rw [hr, show s.rem.toNat - (0 + 8 * 0) = s.rem.toNat by omega, BitVec.ofNat_toNat, BitVec.setWidth_eq]
          simp [readState, ← (rlen_eq_zero_iff s).2 hr]
        · rw [hr, readSpan, spanValue_nil, residue_empty hr]; simp
      | succ j =>
        obtain ⟨b, bs', es', he, hs', rfl⟩ := suppliedBytes_succ hs
        obtain ⟨g, rb, acc, hl, h1, h2, ha⟩ := key (takeByte b es' s) j bs' (h.takeByte b es') (by simp) rfl
          (by show 8 + 8 * j < s.rem.toNat; omega) hs'
        have e : (takeByte b es' s).rem.toNat - ((takeByte b es' s).rlen.toNat + 8 * j) =
            s.rem.toNat - (s.rlen.toNat + 8 * (j + 1)) := by
          show s.rem.toNat - (8 + 8 * j) = _; omega
        rw [e] at hl h1 h2
        refine ⟨g, rb, acc, ?_, h1, h2, ?_⟩
        · rw [readLoop_byte f (by omega) hr he, hl]
          simp only [readState, takeByte, List.append_assoc, List.singleton_append, List.length_cons]
          congr 2
          omega
        · rw [ha, readSpan, readSpan, takeByte_residue, residue_empty hr, spanValue_cons, Nat.zero_mul, Nat.zero_add, hr]
          show s.acc.toNat * 2 ^ (8 + 8 * j) + _ = s.acc.toNat * 2 ^ (0 + 8 * (j + 1)) + _
          rw [show 8 + 8 * j = 0 + 8 * (j + 1) by omega]
    · obtain ⟨g, rb, acc, hl, h1, h2, ha⟩ := key s j bs h hr rfl hmr hs
      exact ⟨g, rb, acc, by rw [readLoop_residue f (by omega) hr, hl], h1, h2, ha⟩

/-- The state in which a part of a read ended, however it ended. -/
def Progress.state : Progress → State
  | .go s => s
  | .failed s => s
  | .waiting s => s

/-- What no iteration of the loop writes, and how it moves the ghosts, in every state (10_state.md R32). -/
structure LoopFrame (s t : State) : Prop where
  phase : t.phase = s.phase
  cmdWord : t.cmdWord = s.cmdWord
  cmdOperand : t.cmdOperand = s.cmdOperand
  rspStatus : t.rspStatus = s.rspStatus
  rspData : t.rspData = s.rspData
  srcExhausted : t.srcExhausted = s.srcExhausted
  wasReset : t.wasReset = s.wasReset
  drawn : t.drawn = s.drawn
  stream : ∃ bs, t.stream = s.stream ++ bs ∧ t.srcTaken = s.srcTaken + bs.length
  inputs : t.inputs <:+ s.inputs

theorem LoopFrame.refl (s : State) : LoopFrame s s :=
  ⟨rfl, rfl, rfl, rfl, rfl, rfl, rfl, rfl, ⟨[], by simp⟩, List.suffix_refl _⟩

theorem LoopFrame.trans {s t u : State} (h : LoopFrame s t) (k : LoopFrame t u) : LoopFrame s u where
  phase := k.phase.trans h.phase
  cmdWord := k.cmdWord.trans h.cmdWord
  cmdOperand := k.cmdOperand.trans h.cmdOperand
  rspStatus := k.rspStatus.trans h.rspStatus
  rspData := k.rspData.trans h.rspData
  srcExhausted := k.srcExhausted.trans h.srcExhausted
  wasReset := k.wasReset.trans h.wasReset
  drawn := k.drawn.trans h.drawn
  stream := by
    obtain ⟨bs, h1, h2⟩ := h.stream
    obtain ⟨cs, k1, k2⟩ := k.stream
    exact ⟨bs ++ cs, by rw [k1, h1, List.append_assoc], by rw [k2, h2, List.length_append, Nat.add_assoc]⟩
  inputs := k.inputs.trans h.inputs

/-- Waiting for an answer only uses up edges. -/
theorem awaitReply_suffix : ∀ es : List PortIn,
    (∀ r rest, awaitReply es = .reply r rest → rest <:+ es) ∧
    (∀ rest, awaitReply es = .silent rest → rest <:+ es)
  | [] => ⟨fun _ _ h => by simp [awaitReply] at h, fun _ h => by simp [awaitReply] at h; simp [h]⟩
  | e :: es => by
    have ih := awaitReply_suffix es
    rw [awaitReply]
    split
    · exact ⟨nofun, fun _ h => by cases h; exact List.suffix_refl _⟩
    · split
      · exact ⟨fun _ _ h => (by cases h; exact List.suffix_cons _ _), nofun⟩
      · exact ⟨fun r rest h => (ih.1 r rest h).trans (List.suffix_cons _ _),
          fun rest h => (ih.2 rest h).trans (List.suffix_cons _ _)⟩

theorem takeChunk_frame (s : State) : LoopFrame s (takeChunk s) :=
  ⟨rfl, rfl, rfl, rfl, rfl, rfl, rfl, rfl, ⟨[], by simp [takeChunk]⟩, List.suffix_refl _⟩

theorem takeByte_frame {b : Byte} {es : List PortIn} {s : State} (h : es <:+ s.inputs) :
    LoopFrame s (takeByte b es s) :=
  ⟨rfl, rfl, rfl, rfl, rfl, rfl, rfl, rfl, ⟨[b], rfl, rfl⟩, h⟩

theorem setInputs_frame {es : List PortIn} {s : State} (h : es <:+ s.inputs) : LoopFrame s (setInputs es s) :=
  ⟨rfl, rfl, rfl, rfl, rfl, rfl, rfl, rfl, ⟨[], by simp⟩, h⟩

/-- Everything the loop can do to the rest of the state, in every state. -/
theorem readLoop_frame : ∀ (f : Nat) (s : State), LoopFrame s (readLoop f s).state := by
  intro f
  induction f with
  | zero => exact fun s => LoopFrame.refl s
  | succ f ih =>
    intro s
    obtain hm | hm := Nat.eq_zero_or_pos s.rem.toNat
    · rw [readLoop_done _ hm]; exact LoopFrame.refl s
    obtain hr | hr := Nat.eq_zero_or_pos s.rlen.toNat
    · have hsuf := awaitReply_suffix s.inputs
      cases he : awaitReply s.inputs with
      | silent es => rw [readLoop_silent f hm hr he]; exact setInputs_frame (hsuf.2 es he)
      | reply r es =>
        cases r with
        | fail => rw [readLoop_fail f hm hr he]; exact setInputs_frame (hsuf.1 _ es he)
        | byte b =>
          rw [readLoop_byte f hm hr he]
          exact ((takeByte_frame (hsuf.1 _ es he)).trans (takeChunk_frame _)).trans (ih _)
    · rw [readLoop_residue f hm hr]; exact (takeChunk_frame s).trans (ih _)

/-- A read begun in a state of the boundary with a legal count is ready for the loop's arithmetic. -/
theorem beginRead_ready {s : State} {n : Count} (h : ResidueInv s) (hn : n.toNat ≤ 64) :
    LoopReady (beginRead n s) :=
  ⟨Nat.le_trans h.1 (by decide), h.2, hn, by simp [beginRead]⟩

/-- A read that goes on from a wait is ready for the loop's arithmetic. -/
theorem waiting_ready {s : State} {n : Nat} (hn : n ≤ 64) (hr : s.rlen.toNat = 0) (hm : s.rem.toNat ≤ n)
    (ha : s.acc.toNat < 2 ^ (n - s.rem.toNat)) : LoopReady s :=
  ⟨by omega, fun h => by omega, by omega,
    Nat.lt_of_lt_of_le ha (Nat.pow_le_pow_right (by decide) (by omega))⟩

end Sys2Proof.Machine
end

