-- ==== Sys2Proof/Laws/Step.lean ====
section
/-! SUPPORT. What a step is, by phase: the equations every proof about a step starts from. -/

namespace Sys2Proof.Machine

theorem edge_of_cons {s : State} {e : PortIn} {es : List PortIn} (h : s.inputs = e :: es) : s.edge = e := by
  simp [State.edge, h]

theorem pastEdge_of_cons {s : State} {e : PortIn} {es : List PortIn} (h : s.inputs = e :: es) :
    pastEdge s = { s with inputs := es } := by
  simp [pastEdge, h]

theorem edge_of_nil {s : State} (h : s.inputs = []) : s.edge = .quiet := by simp [State.edge, h]

theorem step_of_rst {s : State} (h : s.edge.rst = true) : step s = .next (resetEdge s.edge (pastEdge s)) := by
  rw [step, if_pos h]

theorem step_of_idle_offer {s : State} (hr : s.edge.rst = false) (hp : s.phase = .idle)
    (hv : s.edge.cmdValid = true) : step s = acceptCommand s.edge (pastEdge s) := by
  simp [step, hr, hp, hv]

theorem step_of_idle_quiet {s : State} (hr : s.edge.rst = false) (hp : s.phase = .idle)
    (hv : s.edge.cmdValid = false) : step s = .next (pastEdge s) := by
  simp [step, hr, hp, hv]

theorem step_of_busy {s : State} (hr : s.edge.rst = false) (hp : s.phase = .busy) :
    step s = resumeCommand s := by
  simp [step, hr, hp]

theorem step_of_resp_ready {s : State} (hr : s.edge.rst = false) (hp : s.phase = .resp)
    (hv : s.edge.rspReady = true) : step s = .next (deliver (pastEdge s)) := by
  simp [step, hr, hp, hv]

theorem step_of_resp_wait {s : State} (hr : s.edge.rst = false) (hp : s.phase = .resp)
    (hv : s.edge.rspReady = false) : step s = .next (pastEdge s) := by
  simp [step, hr, hp, hv]

/-- What a step can be: one of six events of the interface. -/
theorem step_cases (s : State) :
    (s.edge.rst = true ∧ step s = .next (resetEdge s.edge (pastEdge s))) ∨
    (s.edge.rst = false ∧ s.phase = .idle ∧ s.edge.cmdValid = true ∧
      step s = acceptCommand s.edge (pastEdge s)) ∨
    (s.edge.rst = false ∧ s.phase = .idle ∧ s.edge.cmdValid = false ∧ step s = .next (pastEdge s)) ∨
    (s.edge.rst = false ∧ s.phase = .busy ∧ step s = resumeCommand s) ∨
    (s.edge.rst = false ∧ s.phase = .resp ∧ s.edge.rspReady = true ∧ step s = .next (deliver (pastEdge s))) ∨
    (s.edge.rst = false ∧ s.phase = .resp ∧ s.edge.rspReady = false ∧ step s = .next (pastEdge s)) := by
  cases hr : s.edge.rst with
  | true => exact .inl ⟨rfl, step_of_rst hr⟩
  | false =>
    cases hp : s.phase with
    | busy => exact .inr (.inr (.inr (.inl ⟨rfl, rfl, step_of_busy hr hp⟩)))
    | idle =>
      cases hv : s.edge.cmdValid with
      | true => exact .inr (.inl ⟨rfl, rfl, rfl, step_of_idle_offer hr hp hv⟩)
      | false => exact .inr (.inr (.inl ⟨rfl, rfl, rfl, step_of_idle_quiet hr hp hv⟩))
    | resp =>
      cases hv : s.edge.rspReady with
      | true => exact .inr (.inr (.inr (.inr (.inl ⟨rfl, rfl, rfl, step_of_resp_ready hr hp hv⟩))))
      | false => exact .inr (.inr (.inr (.inr (.inr ⟨rfl, rfl, rfl, step_of_resp_wait hr hp hv⟩))))

end Sys2Proof.Machine
end

