-- ==== Sys2Proof/Tests/Slice0.lean ====
section
/-! SUPPORT. Tests with expected results from spec/95_test_vectors.md or worked out by hand from the rules,
the refusals of WellFormed, and for every statement with hypotheses a state that meets them. -/

namespace Sys2Proof.Tests

open Sys2Proof Sys2Proof.Machine

/-! Helpers. -/

/-- The next state of an outcome, if it is one. -/
def after : Result → Option State
  | .next s => some s
  | .fault _ => none
  | .refused _ => none

/-- A core between two commands with a residue, after the given bytes have been handed over. -/
def core (rlen : ResidueLen) (rbyte : Byte) (stream : List Byte) (inputs : List PortIn) : State :=
  { State.reset with rlen := rlen, rbyte := rbyte, stream := stream, inputs := inputs }

/-- The state of the spec's example after `READ_UNSIGNED 3` of `0xB2`: five bits `10010` are left. -/
def partialB2 (inputs : List PortIn) : State := core 5 0b00010010 [0xB2] inputs

def ack (b : Byte) : PortIn := replyEdge (.byte b)

def nack : PortIn := replyEdge .fail

def resetPort : PortIn := { PortIn.quiet with rst := true }

def takePort : PortIn := { PortIn.quiet with rspReady := true }

/-- Status, data, `RLEN` and `RBYTE` after an outcome. -/
def seen (r : Result) : Option (Status × Word × ResidueLen × Byte) :=
  (after r).map (fun t => (t.rspStatus, t.rspData, t.rlen, t.rbyte))

/-! WellFormed refuses each ill-formed term. -/

theorem test_wf_refuses_unsigned_65 : (Instr.readUnsigned 65).wf = false := by decide

theorem test_wf_refuses_signed_0 : (Instr.readSigned 0).wf = false := by decide

theorem test_wf_refuses_signed_33 : (Instr.readSigned 33).wf = false := by decide

theorem test_wf_admits_the_limits :
    (Instr.readUnsigned 0).wf = true ∧ (Instr.readUnsigned 64).wf = true ∧ (Instr.readSigned 1).wf = true ∧
    (Instr.readSigned 32).wf = true := by decide

/-! Decoding: words written out from the patterns of 30_encoding.md R62. -/

theorem test_decode_at_end : decode 0b0000000000#10 = .command .atEnd := by decide

theorem test_decode_read_unsigned : decode 0b0010010101#10 = .command (.readUnsigned 21) := by decide

theorem test_decode_read_byte : decode 0b0100000000#10 = .command .readByte := by decide

theorem test_decode_read_signed : decode 0b0110011111#10 = .command (.readSigned 31) := by decide

theorem test_decode_align : decode 0b1000000000#10 = .command .align := by decide

theorem test_decode_clz : decode 0b1010000000#10 = .command .clz := by decide

theorem test_decode_reserved : decode 0b1100000000#10 = .illegal .reservedOpcode ∧
    decode 0b1111111111#10 = .illegal .reservedOpcode := by decide

theorem test_decode_count_not_zero : decode 0b0001111111#10 = .illegal .countNotZero ∧
    decode 0b0100000001#10 = .illegal .countNotZero ∧ decode 0b1010000001#10 = .illegal .countNotZero := by decide

theorem test_encode_numbers : encode .atEnd = 0x000 ∧ encode (.readUnsigned 3) = 0x083 ∧ encode .readByte = 0x100 ∧
    encode (.readSigned 8) = 0x188 ∧ encode .align = 0x200 ∧ encode .clz = 0x280 := by decide

theorem test_table_word : decodeTableWord 16 0x1A0 = some (.readSigned 32) ∧ decodeTableWord 16 0x300 = none ∧
    decodeTableWord 16 0x400 = none ∧ decodeTableWord 10 0x0C0 = some (.readUnsigned 64) := by decide

/-- R69: a listing line. -/
theorem test_listing : Instr.listing (.readUnsigned 64) 0 = "READ_UNSIGNED 64" := by decide

/-- R141. -/
theorem test_status_codes : statusCode .ok = 0b00#2 ∧ statusCode .errCount = 0b01#2 ∧
    statusCode .errIllegal = 0b10#2 ∧ statusCode .errSource = 0b11#2 := by decide

/-- R24: EMPTY is `RLEN = 0`, PARTIAL is 1 to 8. -/
theorem test_empty_partial : State.reset.isEmpty = true ∧ State.reset.isPartial = false ∧
    (core 1 1 [1] []).isPartial = true ∧ (core 8 1 [1] []).isPartial = true ∧ (core 8 1 [1] []).isEmpty = false := by
  decide

/-! The commands, by the vectors of 95_test_vectors.md. -/

/-- S7: right after reset over an empty, exhausted source. -/
theorem test_at_end_true : seen (exec .atEnd { State.reset with srcExhausted := true }) = some (.ok, 1, 0, 0) := by
  decide

/-- S8 step 3: exhausted, but five bits are buffered. -/
theorem test_at_end_false_in_partial :
    seen (exec .atEnd { partialB2 [] with srcExhausted := true }) = some (.ok, 0, 5, 0b00010010) := by decide

/-- S8 step 2: `READ_UNSIGNED 3` of `0xB2`. -/
theorem test_read_unsigned_fetches :
    seen (exec (.readUnsigned 3) (core 0 0xFF [] [PortIn.quiet, ack 0xB2])) = some (.ok, 5, 5, 0b00010010) := by
  decide

/-- 2.2: the longest loop, 64 bits with a residue of 7. -/
theorem test_read_unsigned_nine_iterations :
    seen (exec (.readUnsigned 64)
      (core 7 0x7F [0xFF] ([0x01, 0x23, 0x45, 0x67, 0x89, 0xAB, 0xCD, 0xEF].map ack))) =
      some (.ok, 0xFE02468ACF13579B, 7, 0b01101111) := by decide

/-- 2.2: `READ_BYTE` with four bits in the residue. -/
theorem test_read_byte_unaligned :
    seen (exec .readByte (core 4 0b00001010 [0x5A] [ack 0xC3])) = some (.ok, 0xAC, 4, 0b00000011) := by decide

/-- 2.6: a failing source. -/
theorem test_read_byte_fails :
    (after (exec .readByte (core 0 0 [] [nack]))).map (fun t => (t.rspStatus, t.rlen, t.nfetch)) =
      some (.errSource, 0, 0) := by decide

/-- 2.3: `READ_SIGNED 12` over `F8 30`. -/
theorem test_read_signed_negative :
    seen (exec (.readSigned 12) (core 0 0 [] [ack 0xF8, ack 0x30])) =
      some (.ok, 0xFFFFFFFFFFFFFF83, 4, 0) := by decide

/-- 2.3: the most positive 32-bit value, shift amount 0. -/
theorem test_read_signed_full_frame :
    seen (exec (.readSigned 32) (core 0 0 [] [ack 0x7F, ack 0xFF, ack 0xFF, ack 0xFF])) =
      some (.ok, 0x7FFFFFFF, 0, 0) := by decide

/-- S4: `ALIGN` does not clear `RBYTE`. -/
theorem test_align_partial : seen (exec .align (partialB2 [])) = some (.ok, 0, 0, 0b00010010) := by decide

/-- 2.4: the unreachable length 8 stays. -/
theorem test_align_whole_byte : seen (exec .align (core 8 0xB2 [0xB2] [])) = some (.ok, 0, 8, 0xB2) := by decide

/-- 2.5. -/
theorem test_clz_31 :
    seen (exec .clz { partialB2 [] with cmdOperand := 0x0000000100000000 }) = some (.ok, 31, 5, 0b00010010) := by decide

/-- 2.5: all bits are exhausted. -/
theorem test_clz_zero : seen (exec .clz { partialB2 [] with cmdOperand := 0 }) = some (.ok, 64, 5, 0b00010010) := by
  decide

/-! Steps. -/

/-- 2.6: `READ_SIGNED 33` is refused at decode and consumes nothing. -/
theorem test_step_count_out_of_range :
    (after (step (partialB2 [offerEdge 0x1A1, ack 0x4C]))).map (fun t => (t.rspStatus, t.rlen, t.inputs)) =
      some (.errCount, 5, [ack 0x4C]) := by decide

/-- 2.6: op 6. -/
theorem test_step_illegal :
    (after (step (partialB2 [offerEdge 0x300, ack 0x4C]))).map (fun t => (t.rspStatus, t.rbyte, t.inputs)) =
      some (.errIllegal, 0b00010010, [ack 0x4C]) := by decide

/-- P3 row 5: 24 bits over a list of two bytes: both are consumed, the third fetch fails. -/
theorem test_list_source_runs_dry :
    (fun p : State × List Byte => (p.1.rspStatus, p.1.rlen, p.1.nfetch, p.2))
      (issueOverList [0x5A, 0x0F] 0x098 0 (core 0 0 [0x96] [])) = (.errSource, 0, 3, []) := by decide

/-- 2.7: reset with a residue; the source is not touched. -/
theorem test_reset_edge :
    (after (step (partialB2 [resetPort, ack 0x4C]))).map (fun t => (t.rlen, t.phase, t.pos, t.inputs)) =
      some (0, .idle, 0, [ack 0x4C]) := by decide

/-- R172: a fetch that completes on the reset edge is counted by the source and discarded. -/
theorem test_reset_edge_with_answer :
    (after (step { partialB2 [{ ack 0x4C with rst := true }] with
      phase := .busy, cmdWord := 0x100, rlen := 0, rem := 3 })).map (fun t => (t.srcTaken, t.stream, t.phase)) =
      some (1, [], .idle) := by decide

/-- How a command comes to run first after reset: the host offers it (log 10). -/
theorem test_with_fetch_word :
    (after (step (State.reset.withFetchWord 16 0x280))).map (fun t => (t.phase, t.rspStatus, t.rspData)) =
      some (.resp, .ok, 64) := by decide

/-! Witnesses: states that meet the hypotheses of the statements, at boundary values. -/

theorem reset_residue_inv : ResidueInv State.reset := by unfold ResidueInv; decide

theorem reset_stream_inv : StreamInv State.reset := by intro h; exact absurd h (by decide)

theorem partialB2_residue_inv (es : List PortIn) : ResidueInv (partialB2 es) :=
  ⟨by show (5#4).toNat ≤ 7; decide, fun _ => by show (0b00010010#8).toNat < 2 ^ (5#4).toNat; decide⟩

theorem partialB2_stream_inv (es : List PortIn) : StreamInv (partialB2 es) :=
  fun _ => ⟨0xB2, rfl, by show (0b00010010#8).toNat = (0xB2#8).toNat % 2 ^ (5#4).toNat; decide⟩

/-- A read of 16 bits that has taken its five residue bits and waits. -/
def waitingRead : State :=
  { partialB2 [] with phase := .busy, cmdWord := 0x090, rlen := 0, rbyte := 0, acc := 18, rem := 11 }

theorem waitingRead_inv : Inv waitingRead where
  residue := by unfold ResidueInv; decide
  stream := fun h => absurd h (by decide)
  busy := fun _ => ⟨.readUnsigned 16, 16, by decide, by decide, rfl, by decide, by decide, by decide, by decide⟩
  resp := fun h => by cases h

theorem witness_EncodeOfDecodeIsTheWord : decode 0x0FF#10 = .command (.readUnsigned 127) := by decide

theorem witness_CommandWordClasses :
    classify 0x0C0 = .legal ∧ classify 0x0C1 = .countOutOfRange ∧ classify 0x0FF = .countOutOfRange ∧
    classify 0x180 = .countOutOfRange ∧ classify 0x181 = .legal ∧ classify 0x1A0 = .legal ∧
    classify 0x1A1 = .countOutOfRange ∧ classify 0x1FF = .countOutOfRange ∧
    classify 0x2FF = .illegal .countNotZero ∧ classify 0x300 = .illegal .reservedOpcode ∧
    classify 0x001 = .illegal .countNotZero ∧ classify 0x07F = .illegal .countNotZero ∧
    classify 0x080 = .legal := by decide

theorem witness_AlignDiscardsTheResidue :
    (core 7 0x7F [0xFF] []).rlen.toNat ≤ 7 ∧ (core 8 0xFF [0xFF] []).rlen.toNat = 8 := by decide

theorem witness_AlignLaws :
    ResidueInv (partialB2 []) ∧ 1 ≤ (partialB2 []).rlen.toNat ∧ ResidueInv State.reset ∧
    State.reset.rlen.toNat = 0 ∧ atEndResult State.reset.rlen true = 1 :=
  ⟨partialB2_residue_inv _, by decide, reset_residue_inv, by decide, by decide⟩

theorem witness_ClzCountsLeadingZeros :
    (0x8000000000000000 : Word).getLsbD 63 = true ∧ (1 : Word).getLsbD 0 = true ∧
    (∀ q : Nat, 0 < q → q < 64 → (1 : Word).getLsbD q = false) := by
  refine ⟨by decide, by decide, fun q h _ => ?_⟩
  rw [show (1 : Word) = 1#64 from rfl, BitVec.getLsbD_one]
  simp; omega

theorem witness_ClzOfNarrowerWidth :
    (1 : Word).toNat < 2 ^ 1 ∧ (0xFFFFFFFFFFFFFFFF : Word).toNat < 2 ^ 64 := by decide

theorem witness_ReadUnsignedClosedForm :
    ResidueInv (partialB2 [PortIn.quiet, ack 0x4C]) ∧ (6 : Count).toNat ≤ 64 ∧
    suppliedBytes (readFetches (partialB2 []).rlen.toNat (6 : Count).toNat) [PortIn.quiet, ack 0x4C] =
      some ([0x4C], []) ∧
    suppliedBytes (readFetches (partialB2 []).rlen.toNat (5 : Count).toNat) [] = some ([], []) ∧
    suppliedBytes (readFetches (partialB2 []).rlen.toNat (0 : Count).toNat) [] = some ([], []) :=
  ⟨partialB2_residue_inv _, by decide, by decide, by decide, by decide⟩

theorem witness_ReadUnsignedFetchCount :
    ResidueInv (partialB2 [ack 0x4C]) ∧
    (after (exec (.readUnsigned 6) (partialB2 [ack 0x4C]))).map (fun t => (t.phase, t.rspStatus)) =
      some (.resp, .ok) ∧
    (after (exec (.readUnsigned 5) (partialB2 [ack 0x4C]))).map (fun t => (t.phase, t.rspStatus)) =
      some (.resp, .ok) :=
  ⟨partialB2_residue_inv _, by decide, by decide⟩

theorem witness_ReadByteSpansTheByteBoundary :
    ResidueInv (partialB2 [ack 0x4C]) ∧ awaitReply (partialB2 [ack 0x4C]).inputs = .reply (.byte 0x4C) [] :=
  ⟨partialB2_residue_inv _, by decide⟩

theorem witness_ReadSignedClosedForm :
    ResidueInv (partialB2 [ack 0x4C]) ∧ 1 ≤ (13 : Count).toNat ∧ (13 : Count).toNat ≤ 32 ∧
    suppliedBytes (readFetches (partialB2 []).rlen.toNat (13 : Count).toNat) [ack 0x4C] = some ([0x4C], []) :=
  ⟨partialB2_residue_inv _, by decide, by decide, by decide⟩

theorem witness_ReadSignedHasTheStateEffectOfReadUnsigned :
    1 ≤ (32 : Count).toNat ∧ (32 : Count).toNat ≤ 32 ∧
    (after (exec (.readUnsigned 5) (partialB2 []))).map (fun t => (t.phase, t.rspStatus)) = some (.resp, .ok) := by
  decide

theorem witness_SignExtensionIsTheMux :
    1 ≤ (1 : Count).toNat ∧ (1 : Word).toNat < 2 ^ (1 : Count).toNat ∧ (32 : Count).toNat ≤ 32 ∧
    (0xFFFFFFFF : Word).toNat < 2 ^ (32 : Count).toNat := by decide

theorem witness_OutOfRangeCountChangesNothing :
    (Instr.readUnsigned 127).wf = false ∧ (Instr.readSigned 0).wf = false := by decide

theorem witness_FailedFetchEndsTheRead :
    ResidueInv (partialB2 [ack 0x11, nack]) ∧ (Instr.readSigned 32).readCount = some 32 ∧
    (Instr.readSigned 32).wf = true ∧ 1 < readFetches (partialB2 []).rlen.toNat (32 : Count).toNat ∧
    suppliedBytes 1 [ack 0x11, nack] = some ([0x11], [nack]) ∧ awaitReply [nack] = .reply .fail [] :=
  ⟨partialB2_residue_inv _, rfl, by decide, by decide, by decide, by decide⟩

theorem witness_UnansweredFetchKeepsTheCoreBusy :
    ResidueInv { partialB2 [ack 0x11] with cmdWord := 0x1A0 } ∧ decode 0x1A0#10 = .command (.readSigned 32) ∧
    1 < readFetches (partialB2 []).rlen.toNat (32 : Count).toNat ∧
    suppliedBytes 1 [ack 0x11] = some ([0x11], []) ∧ awaitReply [] = .silent [] :=
  ⟨partialB2_residue_inv [ack 0x11], by decide, by decide, by decide, by decide⟩

theorem witness_WaitingReadGoesOnAsIfNeverStopped :
    (after (exec (.readUnsigned 16) { partialB2 [ack 0x11] with cmdWord := 0x090 })).map
      (fun t => (t.phase, t.inputs)) = some (.busy, []) ∧ decode 0x090#10 = .command (.readUnsigned 16) ∧
    waitingRead.phase = .busy ∧
    (after (step { waitingRead with inputs := [ack 0x11] })).map (fun t => (t.phase, t.inputs)) =
      some (.busy, []) ∧
    (ack 0x12).rst = false := by decide

theorem witness_NineIterationsSuffice :
    ResidueInv { core 7 0x7F [0xFF] (List.replicate 8 (ack 1)) with rem := 64 } ∧ (64 : Count).toNat = 64 ∧
    (suppliedBytes 8 (List.replicate 8 (ack 1))).isSome = true :=
  ⟨by unfold ResidueInv; decide, by decide, by decide⟩

theorem witness_ReadsDeliverConsecutiveBitsOfTheStream :
    ResidueInv (partialB2 [ack 0x4C]) ∧ StreamInv (partialB2 [ack 0x4C]) ∧
    (Instr.readUnsigned 6).readCount = some 6 ∧ Instr.readByte.readCount = some 8 ∧
    (Instr.readSigned 1).readCount = some 1 ∧
    (after (exec (.readUnsigned 6) (partialB2 [ack 0x4C]))).map (fun t => (t.phase, t.rspStatus)) =
      some (.resp, .ok) ∧
    (after (exec .readByte (partialB2 [ack 0x4C]))).map (fun t => (t.phase, t.rspStatus)) = some (.resp, .ok) ∧
    (after (exec (.readSigned 1) (partialB2 [ack 0x4C]))).map (fun t => (t.phase, t.rspStatus)) =
      some (.resp, .ok) :=
  ⟨partialB2_residue_inv _, partialB2_stream_inv _, rfl, rfl, rfl, by decide, by decide, by decide⟩

theorem witness_TwoReadsReconstructTheBytes :
    State.reset.rlen.toNat = 0 ∧ ((4 : Count).toNat + (12 : Count).toNat) % 8 = 0 ∧
    suppliedBytes (((4 : Count).toNat + (12 : Count).toNat) / 8) [ack 0xDE, ack 0xAD] = some ([0xDE, 0xAD], []) := by
  decide

theorem witness_EightSingleBitsAreOneByte :
    State.reset.rlen.toNat = 0 ∧ awaitReply [ack 0xA5] = .reply (.byte 0xA5) [] := by decide

theorem witness_CommandsKeepWhatTheyDoNotWrite : (after (exec .readByte (partialB2 [ack 1]))).isSome = true := by
  decide

theorem witness_EveryCommandIsAnsweredWhenTheSourceAnswers :
    answersRequests 8 ((List.replicate 7 (ack 1)) ++ [PortIn.quiet, nack]) = true := by decide

theorem witness_StepRunsTheDecodedCommand :
    (partialB2 [offerEdge 0x085]).inputs = offerEdge 0x085 :: [] ∧ (offerEdge 0x085).rst = false ∧
    (offerEdge 0x085).cmdValid = true ∧ (partialB2 []).phase = .idle ∧ (partialB2 []).wasReset = true ∧
    decode (offerEdge 0x085).cmdWord = .command (.readUnsigned 5) := by decide

theorem witness_IllegalCommandIsAnsweredErrIllegal :
    (0x300#10).extractLsb' 7 3 = 6#3 ∧ (0x3FF#10).extractLsb' 7 3 = 7#3 ∧
    (0x001#10).extractLsb' 7 3 = 0#3 ∧ (0x001#10).extractLsb' 0 7 ≠ 0#7 ∧
    (0x17F#10).extractLsb' 7 3 = 2#3 ∧ (0x17F#10).extractLsb' 0 7 ≠ 0#7 ∧
    (0x201#10).extractLsb' 7 3 = 4#3 ∧ (0x201#10).extractLsb' 0 7 ≠ 0#7 ∧
    (0x281#10).extractLsb' 7 3 = 5#3 ∧ (0x281#10).extractLsb' 0 7 ≠ 0#7 ∧
    (offerEdge 0x281).cmdValid = true ∧ (offerEdge 0x281).rst = false ∧
    State.reset.phase = .idle ∧ State.reset.wasReset = true := by decide

theorem witness_CountOutOfRangeIsAnsweredErrCount :
    (0x0C1#10).extractLsb' 7 3 = 1#3 ∧ 64 < ((0x0C1#10).extractLsb' 0 7).toNat ∧
    (0x180#10).extractLsb' 7 3 = 3#3 ∧ ((0x180#10).extractLsb' 0 7).toNat = 0 ∧
    (0x1A1#10).extractLsb' 7 3 = 3#3 ∧ 32 < ((0x1A1#10).extractLsb' 0 7).toNat := by decide

theorem witness_ResponseIsHeldUntilDelivered :
    (({ partialB2 [takePort] with phase := .resp } : State).edge.rspReady = true) ∧
    (({ partialB2 [] with phase := .resp } : State).edge.rspReady = false) ∧
    takePort.rst = false := by decide

theorem witness_IdleCoreWaitsForACommand :
    State.reset.phase = .idle ∧ State.reset.edge.rst = false ∧ State.reset.edge.cmdValid = false := by decide

theorem witness_CommandBeforeResetIsRefused :
    (({ partialB2 [offerEdge 0] with wasReset := false } : State).edge.cmdValid = true) ∧
    (partialB2 [offerEdge 0]).phase = .idle ∧ (partialB2 [offerEdge 0]).edge.rst = false := by decide

theorem witness_BusyCoreWaitsWithoutBound :
    waitingRead.srcReq = true ∧ (∀ e ∈ [PortIn.quiet, offerEdge 0], e.rst = false ∧ e.srcAck = false) := by decide

theorem witness_CommandsOfferedWhileNotReadyChangeNothing :
    waitingRead.phase ≠ .idle ∧ (after (step { waitingRead with inputs := [offerEdge 0x100] })).isSome = true ∧
    (after (step { waitingRead with phase := .resp, inputs := [offerEdge 0x100] })).isSome = true := by decide

theorem witness_PhaseTransitions :
    (after (step (partialB2 [resetPort]))).isSome = true ∧ (after (step (partialB2 [offerEdge 0x100]))).isSome = true ∧
    (after (step (partialB2 []))).isSome = true ∧ (after (step waitingRead)).isSome = true ∧
    (after (step { waitingRead with phase := .resp })).isSome = true ∧
    (after (step { waitingRead with phase := .resp, inputs := [takePort] })).isSome = true := by decide

theorem witness_ResetEdgeGivesTheResetState :
    (partialB2 [resetPort]).edge.rst = true ∧ (partialB2 [resetPort]).srcReq = false := by decide

theorem witness_ResetAbandonsTheCommandInFlight :
    (({ waitingRead with inputs := [{ ack 1 with rst := true }] } : State).edge.rst = true) ∧
    waitingRead.phase ≠ .idle ∧ waitingRead.srcReq = true ∧ (ack 1).srcAck = true ∧ (ack 1).srcFail = false ∧
    resetPort.srcAck = false := by decide

/-- The edge on which the reset meets an answer with `src_ack = src_fail = 1`: no byte is counted (log 9). -/
theorem witness_ResetAbandonsTheCommandInFlight_failing_answer :
    (({ waitingRead with inputs := [{ nack with rst := true }] } : State).edge.rst = true) ∧
    nack.srcAck = true ∧ nack.srcFail = true ∧ waitingRead.srcReq = true ∧
    (after (step { waitingRead with inputs := [{ nack with rst := true }] })).map (fun t => (t.srcTaken, t.phase)) =
      some (waitingRead.srcTaken, .idle) := by decide

theorem witness_EveryStepKeepsTheInvariant :
    Inv { waitingRead with inputs := [ack 0x11, ack 0x22] } ∧
    (after (step { waitingRead with inputs := [ack 0x11, ack 0x22] })).isSome = true :=
  ⟨⟨waitingRead_inv.residue, waitingRead_inv.stream, waitingRead_inv.busy, waitingRead_inv.resp⟩, by decide⟩

theorem witness_AResetMachineNeverStops : State.reset.wasReset = true := rfl

theorem witness_ExactlyOneOfReadyValidRequest : Inv waitingRead ∧ waitingRead.srcReq = true :=
  ⟨waitingRead_inv, by decide⟩

theorem witness_NothingDependsOnMeaninglessRegisters :
    SameMeaning (core 0 0x55 [0xB2] [offerEdge 0x083, ack 0x4C])
      { core 0 0xAA [0xB2] [offerEdge 0x083, ack 0x4C] with acc := 7, rem := 9, cmdWord := 0x280, rspData := 1 } :=
  ⟨rfl, fun h => absurd rfl h, rfl, nofun, nofun, rfl, rfl, rfl, rfl, rfl⟩

theorem witness_NothingDependsOnMeaninglessRegisters_in_busy_and_resp :
    SameMeaning waitingRead { waitingRead with rbyte := 0xFF, rspStatus := .errCount, rspData := 1 } ∧
    SameMeaning { partialB2 [] with phase := .resp } { partialB2 [] with phase := .resp, acc := 7, rem := 1 } :=
  ⟨⟨rfl, fun h => absurd rfl h, rfl, fun _ => ⟨rfl, rfl, rfl, rfl, rfl⟩, nofun, rfl, rfl, rfl, rfl, rfl⟩,
    ⟨rfl, fun _ => rfl, rfl, nofun, fun _ => ⟨rfl, rfl⟩, rfl, rfl, rfl, rfl, rfl⟩⟩

theorem witness_ListSourceReadLeavesTheRest :
    ResidueInv (partialB2 []) ∧ (partialB2 []).phase = .idle ∧ (partialB2 []).wasReset = true ∧
    readFetches (partialB2 []).rlen.toNat (64 : Count).toNat ≤ (List.replicate 8 (1 : Byte)).length :=
  ⟨partialB2_residue_inv _, rfl, rfl, by decide⟩

theorem witness_ListSourceRunsDry :
    ResidueInv (partialB2 []) ∧ ([0x11] : List Byte).length < readFetches (partialB2 []).rlen.toNat (32 : Count).toNat :=
  ⟨partialB2_residue_inv _, by decide⟩

end Sys2Proof.Tests
end

/-! PROOFS. The state: what a command can do (10_state.md R32), the phases (R25), reset (R29) and the outputs
(R30), the invariant of R20, R22, R23 and R93, and what no outcome depends on (R22, R26). -/

namespace Sys2Proof.Machine

/-! What a command and a resumed read can be, as equations. -/

/-- The result that a read makes of `ACC` (41_read_unsigned.md R90, R91; 42_read_signed.md R110). -/
def readResult : Instr → Word → Word
  | .readByte => byteResult
  | .readSigned n => signedResult n
  | _ => unsignedResult

theorem exec_atEnd (s : State) : exec .atEnd s = .next (respond (atEndResult s.rlen s.srcExhausted) s) := rfl

theorem exec_align (s : State) : exec .align s = .next (respond 0 { s with rlen := alignedLen s.rlen }) := rfl

theorem exec_clz (s : State) :
    exec .clz s = .next (respond (BitVec.ofNat 64 (leadingZeros s.cmdOperand)) s) := rfl

theorem readUnsigned_wf_iff (n : Count) : (Instr.readUnsigned n).wf = true ↔ n.toNat ≤ 64 := decide_eq_true_iff

theorem readSigned_wf_iff (n : Count) : (Instr.readSigned n).wf = true ↔ 1 ≤ n.toNat ∧ n.toNat ≤ 32 := by
  simp only [Instr.wf, Bool.and_eq_true, decide_eq_true_eq]
  rfl

theorem unsignedCountOutOfRange_eq (n : Count) :
    unsignedCountOutOfRange n = !(Instr.readUnsigned n).wf := by
  rw [Bool.eq_iff_iff]
  simp [unsignedCountOutOfRange, Instr.wf]

theorem signedCountOutOfRange_eq (n : Count) : signedCountOutOfRange n = !(Instr.readSigned n).wf := by
  rw [Bool.eq_iff_iff]
  simp [signedCountOutOfRange, Instr.wf]

/-- A refused count is answered before anything else happens (60_exceptions.md R143). -/
theorem exec_of_not_wf {i : Instr} (h : i.wf = false) (s : State) : exec i s = .next (raise .errCount s) := by
  cases i with
  | readUnsigned n => simp [exec, execReadUnsigned, unsignedCountOutOfRange_eq, h]
  | readSigned n => simp [exec, execReadSigned, signedCountOutOfRange_eq, h]
  | atEnd | readByte | align | clz => cases h

/-- The three legal reads have one body. -/
theorem exec_read {i : Instr} {n : Count} (hw : i.wf = true) (hc : i.readCount = some n) (s : State) :
    exec i s = .next (readBody (readResult i) n s) := by
  cases i with
  | readUnsigned m => cases hc; simp [exec, execReadUnsigned, unsignedCountOutOfRange_eq, hw, readResult]
  | readSigned m => cases hc; simp [exec, execReadSigned, signedCountOutOfRange_eq, hw, readResult]
  | readByte => cases hc; rfl
  | atEnd | align | clz => cases hc

/-- A command is refused for its count, a legal read, or one of the three that make no fetch. -/
theorem instr_cases (i : Instr) :
    i.wf = false ∨ (∃ n, i.wf = true ∧ i.readCount = some n) ∨ i = .atEnd ∨ i = .align ∨ i = .clz := by
  cases hw : i.wf with
  | false => exact .inl rfl
  | true => cases i <;> simp [Instr.readCount]

theorem readCount_le {i : Instr} {n : Count} (hw : i.wf = true) (hc : i.readCount = some n) : n.toNat ≤ 64 := by
  cases i with
  | readUnsigned m => cases hc; exact (readUnsigned_wf_iff n).1 hw
  | readSigned m => cases hc; exact Nat.le_trans ((readSigned_wf_iff n).1 hw).2 (by decide)
  | readByte => cases hc; decide
  | atEnd | align | clz => cases hc

theorem runCommand_command {s : State} {i : Instr} (hd : decode s.cmdWord = .command i) :
    runCommand s = exec i s := by
  rw [runCommand, hd]

theorem runCommand_illegal {s : State} {why : Illegal} (hd : decode s.cmdWord = .illegal why) :
    runCommand s = .next (raise .errIllegal s) := by
  rw [runCommand, hd]

theorem resumeCommand_read {s : State} {i : Instr} {n : Count} (hd : decode s.cmdWord = .command i)
    (hc : i.readCount = some n) : resumeCommand s = .next (continueRead (readResult i) s) := by
  rw [resumeCommand, hd]
  cases i with
  | readUnsigned | readByte | readSigned => rfl
  | atEnd | align | clz => cases hc

theorem resumeCommand_direct {s : State} {i : Instr} (hd : decode s.cmdWord = .command i)
    (hc : i.readCount = none) : resumeCommand s = exec i s := by
  rw [resumeCommand, hd]
  cases i with
  | readUnsigned | readByte | readSigned => cases hc
  | atEnd | align | clz => rfl

theorem resumeCommand_illegal {s : State} {why : Illegal} (hd : decode s.cmdWord = .illegal why) :
    resumeCommand s = .next (raise .errIllegal s) := by
  rw [resumeCommand, hd]

theorem acceptCommand_next {e : PortIn} {s t : State} (h : acceptCommand e s = .next t) :
    runCommand (accept e s) = .next t := by
  rw [acceptCommand] at h
  split at h
  · exact h
  · cases h

/-! What every command leaves unchanged (10_state.md R32). -/

/-- What no command writes, and how a command moves the ghosts and uses up edges. -/
structure CommandFrame (s t : State) : Prop where
  cmdWord : t.cmdWord = s.cmdWord
  cmdOperand : t.cmdOperand = s.cmdOperand
  srcExhausted : t.srcExhausted = s.srcExhausted
  wasReset : t.wasReset = s.wasReset
  stream : ∃ bs, t.stream = s.stream ++ bs ∧ t.srcTaken = s.srcTaken + bs.length
  inputs : t.inputs <:+ s.inputs

theorem respond_frame (v : Word) (s : State) : CommandFrame s (respond v s) :=
  ⟨rfl, rfl, rfl, rfl, ⟨[], by simp⟩, List.suffix_refl _⟩

theorem raise_frame (e : Status) (s : State) : CommandFrame s (raise e s) :=
  ⟨rfl, rfl, rfl, rfl, ⟨[], by simp⟩, List.suffix_refl _⟩

/-- The end of a read writes the phase and the response only. -/
theorem endRead_frame (result : Word → Word) {s : State} {p : Progress} (h : LoopFrame s p.state) :
    CommandFrame s (endRead result p) := by
  cases p <;> exact ⟨h.cmdWord, h.cmdOperand, h.srcExhausted, h.wasReset, h.stream, h.inputs⟩

theorem readBody_frame (result : Word → Word) (n : Count) (s : State) :
    CommandFrame s (readBody result n s) := by
  obtain ⟨hw, ho, he, hr, hst, hin⟩ := endRead_frame result (readLoop_frame n.toNat (beginRead n s))
  exact ⟨hw, ho, he, hr, hst, hin⟩

theorem exec_frame {i : Instr} {s t : State} (h : exec i s = .next t) : CommandFrame s t := by
  obtain hw | ⟨n, hw, hc⟩ | rfl | rfl | rfl := instr_cases i
  · rw [exec_of_not_wf hw] at h; cases h; exact raise_frame _ s
  · rw [exec_read hw hc] at h; cases h; exact readBody_frame _ n s
  · rw [exec_atEnd] at h; cases h; exact respond_frame _ s
  · rw [exec_align] at h; cases h; exact ⟨rfl, rfl, rfl, rfl, ⟨[], by simp⟩, List.suffix_refl _⟩
  · rw [exec_clz] at h; cases h; exact respond_frame _ s

/-- Only a legal read writes `RBYTE`, `ACC` or `REM` or touches the source. -/
theorem exec_frame_of_not_read {i : Instr} {s t : State} (h : exec i s = .next t)
    (hi : i.readCount = none ∨ i.wf = false) :
    t.rbyte = s.rbyte ∧ t.acc = s.acc ∧ t.rem = s.rem ∧ t.stream = s.stream ∧ t.srcTaken = s.srcTaken ∧
      t.inputs = s.inputs := by
  obtain hw | ⟨n, hw, hc⟩ | rfl | rfl | rfl := instr_cases i
  · rw [exec_of_not_wf hw] at h; cases h; simp
  · simp [hw, hc] at hi
  · rw [exec_atEnd] at h; cases h; simp
  · rw [exec_align] at h; cases h; simp
  · rw [exec_clz] at h; cases h; simp

/-- Besides the legal reads only `ALIGN` writes `RLEN`. -/
theorem exec_keeps_rlen {i : Instr} {s t : State} (h : exec i s = .next t)
    (hi : i = .atEnd ∨ i = .clz ∨ i.wf = false) : t.rlen = s.rlen ∧ t.pos = s.pos := by
  obtain rfl | rfl | hw := hi
  · rw [exec_atEnd] at h; cases h; exact ⟨rfl, rfl⟩
  · rw [exec_clz] at h; cases h; exact ⟨rfl, rfl⟩
  · rw [exec_of_not_wf hw] at h; cases h; exact ⟨rfl, rfl⟩

/-- Settles O27: the frame of every command, sharpened for those that make no fetch. -/
theorem commandsKeepWhatTheyDoNotWrite : Obligations.CommandsKeepWhatTheyDoNotWrite := by
  intro i s t h
  obtain ⟨hw, ho, he, hr, ⟨bs, hst, htk⟩, hin⟩ := exec_frame h
  have hcount : t.srcTaken + s.stream.length = s.srcTaken + t.stream.length := by
    rw [hst, htk, List.length_append]; omega
  exact ⟨hw, ho, he, hr, ⟨bs, hst.symm⟩, hin, hcount, exec_frame_of_not_read h, exec_keeps_rlen h⟩

/-! The phases (10_state.md R25). -/

/-- A read that ends offers its response; one that does not stays in its phase. -/
theorem endRead_phase (result : Word → Word) {s : State} {p : Progress} (h : LoopFrame s p.state)
    (hs : s.phase = .busy) : (endRead result p).phase = .busy ∨ (endRead result p).phase = .resp := by
  cases p with
  | go | failed => exact .inr rfl
  | waiting u => exact .inl (h.phase.trans hs)

theorem exec_phase {i : Instr} {s t : State} (h : exec i s = .next t) : t.phase = .busy ∨ t.phase = .resp := by
  obtain hw | ⟨n, hw, hc⟩ | rfl | rfl | rfl := instr_cases i
  · rw [exec_of_not_wf hw] at h; cases h; exact .inr rfl
  · rw [exec_read hw hc] at h; cases h; exact endRead_phase _ (readLoop_frame _ _) rfl
  · rw [exec_atEnd] at h; cases h; exact .inr rfl
  · rw [exec_align] at h; cases h; exact .inr rfl
  · rw [exec_clz] at h; cases h; exact .inr rfl

theorem runCommand_phase {s t : State} (h : runCommand s = .next t) : t.phase = .busy ∨ t.phase = .resp := by
  cases hd : decode s.cmdWord with
  | command i => rw [runCommand_command hd] at h; exact exec_phase h
  | illegal why => rw [runCommand_illegal hd] at h; cases h; exact .inr rfl

theorem resumeCommand_phase {s t : State} (hs : s.phase = .busy) (h : resumeCommand s = .next t) :
    t.phase = .busy ∨ t.phase = .resp := by
  cases hd : decode s.cmdWord with
  | illegal why => rw [resumeCommand_illegal hd] at h; cases h; exact .inr rfl
  | command i =>
    cases hc : i.readCount with
    | none => rw [resumeCommand_direct hd hc] at h; exact exec_phase h
    | some n => rw [resumeCommand_read hd hc] at h; cases h; exact endRead_phase _ (readLoop_frame _ _) hs

/-- Settles O39: event by event of the interface. -/
theorem phaseTransitions : Obligations.PhaseTransitions := by
  intro s t h
  obtain ⟨hr, hs⟩ | ⟨hr, hp, hv, hs⟩ | ⟨hr, hp, hv, hs⟩ | ⟨hr, hp, hs⟩ | ⟨hr, hp, hv, hs⟩ | ⟨hr, hp, hv, hs⟩ :=
    step_cases s
  · rw [hs] at h; cases h; simp [hr]
  · simpa [hr, hp, hv] using runCommand_phase (acceptCommand_next (hs ▸ h))
  · rw [hs] at h; cases h; simp [hr, hp, hv]
  · simpa [hr, hp] using resumeCommand_phase hp (hs ▸ h)
  · rw [hs] at h; cases h; simp [hr, hp, hv]
  · rw [hs] at h; cases h; simp [hr, hp, hv]

/-! Reset and the output ports (10_state.md R29, R30). -/

theorem srcReq_of_phase_ne_busy {s : State} (h : s.phase ≠ .busy) : s.srcReq = false := by
  simp [State.srcReq, h]

/-- A read that waits holds its request (20_memory.md R44). -/
theorem srcReq_of_waiting {s : State} {i : Instr} {n : Count} (hp : s.phase = .busy)
    (hd : decode s.cmdWord = .command i) (hc : i.readCount = some n) (hr : s.rlen.toNat = 0)
    (hm : 1 ≤ s.rem.toNat) : s.srcReq = true := by
  have hk : readCountOf s.cmdWord = some n := by rw [readCountOf, hd, ← hc]
  simp [State.srcReq, hp, hk, hr]
  omega

theorem takenAtReset_of_no_request {e : PortIn} {s : State} (h : s.srcReq = false) :
    takenAtReset e s = s.srcTaken := by
  simp [takenAtReset, h]

/-- Settles O40: the state after the edge is `resetEdge`'s, in every state. -/
theorem resetEdgeGivesTheResetState : Obligations.ResetEdgeGivesTheResetState := by
  intro s hr
  refine ⟨_, _, _, _, _, _, _, _, resetEdge s.edge (pastEdge s), rfl, step_of_rst hr, rfl, rfl, rfl, rfl,
    srcReq_of_phase_ne_busy (by simp), fun h => takenAtReset_of_no_request (s := pastEdge s) h⟩

/-- Settles O45: `IDLE` and `RESP` request nothing, and in `BUSY` the invariant has a read that waits. -/
theorem exactlyOneOfReadyValidRequest : Obligations.ExactlyOneOfReadyValidRequest := by
  intro s h
  cases hp : s.phase with
  | idle =>
    have hq : s.srcReq = false := srcReq_of_phase_ne_busy (by simp [hp])
    simp [State.cmdReady, State.rspValid, hp, hq]
  | resp =>
    have hq : s.srcReq = false := srcReq_of_phase_ne_busy (by simp [hp])
    simp [State.cmdReady, State.rspValid, hp, hq]
  | busy =>
    obtain ⟨i, n, hd, -, hc, hr, hm, -, -⟩ := h.busy hp
    have hq : s.srcReq = true := srcReq_of_waiting hp hd hc hr hm
    simp [State.cmdReady, State.rspValid, hp, hq, hr]

/-! The invariant, by phase. -/

theorem Inv.of_idle {s : State} (hr : ResidueInv s) (hs : StreamInv s) (hp : s.phase = .idle) : Inv s :=
  ⟨hr, hs, fun h => by simp [hp] at h, fun h => by simp [hp] at h⟩

theorem Inv.of_resp {s : State} (hr : ResidueInv s) (hs : StreamInv s) (hp : s.phase = .resp)
    (he : StatusExplained s) : Inv s :=
  ⟨hr, hs, fun h => by simp [hp] at h, fun _ => he⟩

theorem ResidueInv.of_empty {s : State} (h : s.rlen.toNat = 0) : ResidueInv s :=
  ⟨by omega, fun hr => by omega⟩

theorem StreamInv.of_empty {s : State} (h : s.rlen.toNat = 0) : StreamInv s := fun hr => by omega

/-- Settles O42: after reset the residue is empty and the core is idle. -/
theorem resetSatisfiesTheInvariant : Obligations.ResetSatisfiesTheInvariant :=
  Inv.of_idle (.of_empty rfl) (.of_empty rfl) rfl

/-! What explains a response (60_exceptions.md R141). -/

theorem respond_explained {i : Instr} {v : Word} {s : State} (hd : decode s.cmdWord = .command i)
    (hw : i.wf = true) (hv : ResultPlaced i v) : StatusExplained (respond v s) :=
  Exists.intro i ⟨hd, hw, hv⟩

theorem raise_errCount_explained {i : Instr} {s : State} (hd : decode s.cmdWord = .command i)
    (hw : i.wf = false) : StatusExplained (raise .errCount s) :=
  Exists.intro i ⟨hd, hw⟩

theorem raise_errIllegal_explained {why : Illegal} {s : State} (hd : decode s.cmdWord = .illegal why) :
    StatusExplained (raise .errIllegal s) :=
  Exists.intro why hd

theorem raise_errSource_explained {i : Instr} {n : Count} {s : State} (hd : decode s.cmdWord = .command i)
    (hw : i.wf = true) (hc : i.readCount = some n) (hr : s.rlen.toNat = 0) :
    StatusExplained (raise .errSource s) :=
  Exists.intro i ⟨hd, hw, by simp [hc], hr⟩

/-! Where the results stand in `rsp_data` (30_encoding.md R64). -/

theorem atEndResult_placed (r : ResidueLen) (b : Bool) : ResultPlaced .atEnd (atEndResult r b) := by
  show (atEndResult r b).toNat ≤ 1
  rw [atEndResult]
  split <;> decide

theorem leadingZerosBelow_le {W : Nat} (v : BitVec W) (k : Nat) : leadingZerosBelow v k ≤ k := by
  induction k with
  | zero => exact Nat.le_refl 0
  | succ k ih =>
    rw [leadingZerosBelow]
    split <;> omega

theorem clzResult_placed (v : Word) : ResultPlaced .clz (BitVec.ofNat 64 (leadingZeros v)) := by
  show (BitVec.ofNat 64 (leadingZeros v)).toNat ≤ 64
  have h : leadingZeros v ≤ 64 := leadingZerosBelow_le v 64
  rw [BitVec.toNat_ofNat]
  omega

theorem byteResult_placed (acc : Word) : ResultPlaced .readByte (byteResult acc) := by
  show (byteResult acc).toNat < 2 ^ 8
  rw [byteResult, BitVec.toNat_setWidth_of_le (by decide)]
  exact (acc.setWidth 8).isLt

/-- The arithmetic shift by `32 - n` leaves a two's complement value of `n` bits (42_read_signed.md R110). -/
theorem signedResult_placed {n : Count} (acc : Word) (hn : 1 ≤ n.toNat) (hn' : n.toNat ≤ 32) :
    ResultPlaced (.readSigned n) (signedResult n acc) := by
  show -(2 ^ (n.toNat - 1) : Int) ≤ (signedResult n acc).toInt ∧
    (signedResult n acc).toInt ≤ 2 ^ (n.toNat - 1) - 1
  rw [signedResult, BitVec.toInt_signExtend_of_le (by decide), BitVec.toInt_sshiftRight,
    Int.shiftRight_eq_div_pow]
  generalize hx : acc.setWidth 32 <<< (Config.SFRAME_W - n.toNat) = x
  have hlo : -(2 ^ 31 : Int) ≤ x.toInt := BitVec.le_toInt x
  have hhi : x.toInt < (2 ^ 31 : Int) := BitVec.toInt_lt
  have hpow : (2 ^ 31 : Int) = 2 ^ (n.toNat - 1) * 2 ^ (Config.SFRAME_W - n.toNat) := by
    rw [← pow_add]
    congr 1
    simp only [Config.SFRAME_W]
    omega
  have hpos : (0 : Int) < 2 ^ (Config.SFRAME_W - n.toNat) := by positivity
  constructor
  · rw [Nat.cast_pow, Nat.cast_ofNat, Int.le_ediv_iff_mul_le hpos, Int.neg_mul, ← hpow]
    exact hlo
  · rw [Nat.cast_pow, Nat.cast_ofNat, Int.le_sub_one_iff, Int.ediv_lt_iff_lt_mul hpos, ← hpow]
    exact hhi

theorem readResult_placed {i : Instr} {n : Count} {acc : Word} (hw : i.wf = true) (hc : i.readCount = some n)
    (ha : acc.toNat < 2 ^ n.toNat) : ResultPlaced i (readResult i acc) := by
  cases i with
  | readUnsigned m => cases hc; exact ha
  | readByte => exact byteResult_placed acc
  | readSigned m =>
    obtain ⟨hlo, hhi⟩ := (readSigned_wf_iff m).1 hw
    exact signedResult_placed acc hlo hhi
  | atEnd | align | clz => cases hc

/-! The invariant of the extraction loop (41_read_unsigned.md R93). -/

/-- At every iteration of a read of `n` bits: the loop is ready for its arithmetic, the residue is the low end
of the last byte, and `ACC` holds the bits taken so far. -/
structure ReadInv (n : Nat) (s : State) : Prop where
  ready : LoopReady s
  stream : StreamInv s
  rem : s.rem.toNat ≤ n
  acc : s.acc.toNat < 2 ^ (n - s.rem.toNat)

/-- How a read of `n` bits can end: with no bit demanded any more, or before a fetch with an empty residue. -/
def ReadEnds (n : Nat) : Progress → Prop
  | .go s => ReadInv n s ∧ s.rlen.toNat ≤ 7 ∧ s.rem.toNat = 0
  | .failed s => ReadInv n s ∧ s.rlen.toNat = 0
  | .waiting s => ReadInv n s ∧ s.rlen.toNat = 0 ∧ 1 ≤ s.rem.toNat

theorem ReadInv.setInputs {n : Nat} {s : State} (h : ReadInv n s) (es : List PortIn) :
    ReadInv n (setInputs es s) :=
  ⟨⟨h.ready.rlen, h.ready.rbyte, h.ready.rem, h.ready.acc⟩, h.stream, h.rem, h.acc⟩

theorem ReadInv.takeByte {n : Nat} {s : State} (h : ReadInv n s) (b : Byte) (es : List PortIn) :
    ReadInv n (takeByte b es s) :=
  ⟨h.ready.takeByte b es, fun _ => ⟨b, by simp, (Nat.mod_eq_of_lt b.isLt).symm⟩, h.rem, h.acc⟩

theorem takeChunk_stream {s : State} (h : LoopReady s) (hs : StreamInv s) (hr : 1 ≤ s.rlen.toNat) :
    StreamInv (takeChunk s) := by
  intro _
  obtain ⟨b, hlast, hb⟩ := hs hr
  refine ⟨b, hlast, ?_⟩
  rw [takeChunk_rbyte_toNat h, takeChunk_rlen_toNat, hb,
    Nat.mod_mod_of_dvd _ (Nat.pow_dvd_pow 2 (Nat.sub_le ..))]

theorem takeChunk_acc_lt {n : Nat} {s : State} (h : LoopReady s) (hr : 1 ≤ s.rlen.toNat)
    (hm : s.rem.toNat ≤ n) (ha : s.acc.toNat < 2 ^ (n - s.rem.toNat)) :
    (takeChunk s).acc.toNat < 2 ^ (n - (takeChunk s).rem.toNat) := by
  have hk := chunkSize_le_rlen s
  have hkm := chunkSize_le_rem s
  have hchunk : s.rbyte.toNat / 2 ^ (s.rlen.toNat - chunkSize s) < 2 ^ chunkSize s := by
    apply Nat.div_lt_of_lt_mul
    rw [← Nat.pow_add, Nat.sub_add_cancel hk]
    exact h.rbyte hr
  rw [takeChunk_acc_toNat h hr, takeChunk_rem_toNat,
    show n - (s.rem.toNat - chunkSize s) = n - s.rem.toNat + chunkSize s by omega, Nat.pow_add]
  calc s.acc.toNat * 2 ^ chunkSize s + s.rbyte.toNat / 2 ^ (s.rlen.toNat - chunkSize s)
      < (s.acc.toNat + 1) * 2 ^ chunkSize s := by rw [Nat.add_mul, Nat.one_mul]; omega
    _ ≤ 2 ^ (n - s.rem.toNat) * 2 ^ chunkSize s := Nat.mul_le_mul_right _ ha

theorem ReadInv.takeChunk {n : Nat} {s : State} (h : ReadInv n s) (hr : 1 ≤ s.rlen.toNat) :
    ReadInv n (takeChunk s) where
  ready := h.ready.takeChunk hr
  stream := takeChunk_stream h.ready h.stream hr
  rem := by rw [takeChunk_rem_toNat]; exact Nat.le_trans (Nat.sub_le ..) h.rem
  acc := takeChunk_acc_lt h.ready hr h.rem h.acc

/-- The loop, from a residue of at most 7 bits, ends as a read can end. -/
theorem readLoop_ends {n : Nat} : ∀ (f : Nat) (s : State), s.rem.toNat ≤ f → ReadInv n s →
    s.rlen.toNat ≤ 7 → ReadEnds n (readLoop f s) := by
  intro f
  induction f with
  | zero => exact fun s hf h h7 => ⟨h, h7, by omega⟩
  | succ f ih =>
    intro s hf h h7
    obtain hm | hm := Nat.eq_zero_or_pos s.rem.toNat
    · rw [readLoop_done _ hm]; exact ⟨h, h7, hm⟩
    have iteration : ∀ u : State, u.rem = s.rem → ReadInv n u → 1 ≤ u.rlen.toNat →
        ReadEnds n (readLoop f (Machine.takeChunk u)) := by
      intro u hu hinv hr
      have hk : 1 ≤ chunkSize u := chunkSize_pos (by rw [hu]; exact hm) hr
      have h8 := hinv.ready.rlen
      refine ih _ ?_ (hinv.takeChunk hr) ?_
      · rw [takeChunk_rem_toNat, hu]; omega
      · rw [takeChunk_rlen_toNat]; omega
    obtain hr | hr := Nat.eq_zero_or_pos s.rlen.toNat
    · cases he : awaitReply s.inputs with
      | silent es => rw [readLoop_silent f hm hr he]; exact ⟨h.setInputs es, hr, hm⟩
      | reply r es =>
        cases r with
        | fail => rw [readLoop_fail f hm hr he]; exact ⟨h.setInputs es, hr⟩
        | byte b =>
          rw [readLoop_byte f hm hr he]
          exact iteration (Machine.takeByte b es s) rfl (h.takeByte b es) (by simp)
    · rw [readLoop_residue f hm hr]
      exact iteration s rfl h hr

/-! Every step keeps the invariant. -/

/-- A part of a legal read, however it ends, ends in the invariant. -/
theorem endRead_inv {i : Instr} {n : Count} {s : State} {p : Progress} (hd : decode s.cmdWord = .command i)
    (hw : i.wf = true) (hc : i.readCount = some n) (hp : s.phase = .busy) (hf : LoopFrame s p.state)
    (he : ReadEnds n.toNat p) : Inv (endRead (readResult i) p) := by
  rw [← hf.cmdWord] at hd
  cases p with
  | go u =>
    obtain ⟨hi, h7, hm⟩ := he
    have ha := hi.acc
    rw [hm, Nat.sub_zero] at ha
    exact Inv.of_resp ⟨h7, hi.ready.rbyte⟩ hi.stream rfl (respond_explained hd hw (readResult_placed hw hc ha))
  | failed u =>
    obtain ⟨hi, hr⟩ := he
    exact Inv.of_resp (.of_empty hr) hi.stream rfl (raise_errSource_explained hd hw hc hr)
  | waiting u =>
    obtain ⟨hi, hr, hm⟩ := he
    have hu : u.phase = .busy := hf.phase.trans hp
    exact ⟨.of_empty hr, hi.stream, fun _ => ⟨i, n, hd, hw, hc, hr, hm, hi.rem, hi.acc⟩,
      fun h => by rw [endRead, hu] at h; cases h⟩

theorem readBody_inv {i : Instr} {n : Count} {s : State} (hr : ResidueInv s) (hs : StreamInv s)
    (hd : decode s.cmdWord = .command i) (hw : i.wf = true) (hc : i.readCount = some n) :
    Inv (readBody (readResult i) n s) := by
  have hstart : ReadInv n.toNat (beginRead n s) :=
    ⟨beginRead_ready hr (readCount_le hw hc), hs, Nat.le_refl _, by simp⟩
  exact endRead_inv (s := beginRead n s) hd hw hc rfl (readLoop_frame _ _)
    (readLoop_ends _ _ (Nat.le_refl _) hstart hr.1)

theorem alignedLen_of_le_seven {r : ResidueLen} (h : r.toNat ≤ 7) : alignedLen r = 0 := by
  have hmod : r % 8 = r := BitVec.eq_of_toNat_eq (by
    rw [BitVec.toNat_umod]
    exact Nat.mod_eq_of_lt (by show r.toNat < 8; omega))
  rw [alignedLen, hmod, BitVec.sub_self]
  rfl

/-- Every command ends in the invariant, from a boundary state. -/
theorem exec_inv {i : Instr} {s t : State} (hr : ResidueInv s) (hs : StreamInv s)
    (hd : decode s.cmdWord = .command i) (h : exec i s = .next t) : Inv t := by
  obtain hw | ⟨n, hw, hc⟩ | rfl | rfl | rfl := instr_cases i
  · rw [exec_of_not_wf hw] at h; cases h
    exact Inv.of_resp hr hs rfl (raise_errCount_explained hd hw)
  · rw [exec_read hw hc] at h; cases h
    exact readBody_inv hr hs hd hw hc
  · rw [exec_atEnd] at h; cases h
    exact Inv.of_resp hr hs rfl (respond_explained hd rfl (atEndResult_placed _ _))
  · rw [exec_align] at h; cases h
    have h0 : (alignedLen s.rlen).toNat = 0 := by rw [alignedLen_of_le_seven hr.1]; rfl
    exact Inv.of_resp (.of_empty h0) (.of_empty h0) rfl (respond_explained hd rfl rfl)
  · rw [exec_clz] at h; cases h
    exact Inv.of_resp hr hs rfl (respond_explained hd rfl (clzResult_placed _))

theorem runCommand_inv {s t : State} (hr : ResidueInv s) (hs : StreamInv s) (h : runCommand s = .next t) :
    Inv t := by
  cases hd : decode s.cmdWord with
  | command i => rw [runCommand_command hd] at h; exact exec_inv hr hs hd h
  | illegal why =>
    rw [runCommand_illegal hd] at h; cases h
    exact Inv.of_resp hr hs rfl (raise_errIllegal_explained hd)

/-- A waiting read that goes on ends in the invariant. -/
theorem resumeCommand_inv {s t : State} (h : Inv s) (hp : s.phase = .busy) (ht : resumeCommand s = .next t) :
    Inv t := by
  obtain ⟨i, n, hd, hw, hc, hr, -, hmn, ha⟩ := h.busy hp
  rw [resumeCommand_read hd hc] at ht
  cases ht
  have hwait : ReadInv n.toNat s :=
    ⟨waiting_ready (readCount_le hw hc) hr hmn ha, h.stream, hmn, ha⟩
  exact endRead_inv hd hw hc hp (readLoop_frame _ _) (readLoop_ends _ _ (Nat.le_refl _) hwait h.residue.1)

/-- Settles O43: event by event of the interface; the reads by the invariant of their loop. -/
theorem everyStepKeepsTheInvariant : Obligations.EveryStepKeepsTheInvariant := by
  intro s t h ht
  obtain ⟨-, hs⟩ | ⟨-, -, -, hs⟩ | ⟨-, hp, -, hs⟩ | ⟨-, hp, hs⟩ | ⟨-, -, -, hs⟩ | ⟨-, hp, -, hs⟩ := step_cases s
  · rw [hs] at ht; cases ht
    exact Inv.of_idle (.of_empty rfl) (.of_empty rfl) rfl
  · exact runCommand_inv (s := accept s.edge (pastEdge s)) h.residue h.stream (acceptCommand_next (hs ▸ ht))
  · rw [hs] at ht; cases ht
    exact Inv.of_idle h.residue h.stream hp
  · exact resumeCommand_inv h hp (hs ▸ ht)
  · rw [hs] at ht; cases ht
    exact Inv.of_idle h.residue h.stream rfl
  · rw [hs] at ht; cases ht
    exact Inv.of_resp h.residue h.stream hp (h.resp hp)

/-! No outcome depends on what is meaningless (10_state.md R22, R26): what a command in flight may differ in. -/

/-- Two states that agree on what a command can read: `RBYTE` while `RLEN = 0`, `ACC`, `REM`, the phase and the
response registers are open. -/
structure SameCommand (s t : State) : Prop where
  rlen : s.rlen = t.rlen
  rbyte : s.rlen.toNat ≠ 0 → s.rbyte = t.rbyte
  cmdWord : s.cmdWord = t.cmdWord
  cmdOperand : s.cmdOperand = t.cmdOperand
  srcExhausted : s.srcExhausted = t.srcExhausted
  stream : s.stream = t.stream
  srcTaken : s.srcTaken = t.srcTaken
  wasReset : s.wasReset = t.wasReset
  drawn : s.drawn = t.drawn
  inputs : s.inputs = t.inputs

/-- A read in flight agrees on `ACC` and `REM` too. -/
structure SameInFlight (s t : State) : Prop extends SameCommand s t where
  busy_left : s.phase = .busy
  busy_right : t.phase = .busy
  acc : s.acc = t.acc
  rem : s.rem = t.rem

theorem SameMeaning.inFlight {s t : State} (h : SameMeaning s t) (hp : s.phase = .busy) : SameInFlight s t := by
  obtain ⟨ha, hm, hw, ho, he⟩ := h.busy hp
  exact { h with
    cmdWord := hw, cmdOperand := ho, srcExhausted := he, busy_left := hp, busy_right := h.phase ▸ hp
    acc := ha, rem := hm }

theorem SameInFlight.sameMeaning {s t : State} (h : SameInFlight s t) : SameMeaning s t :=
  { h with
    phase := h.busy_left.trans h.busy_right.symm
    busy := fun _ => ⟨h.acc, h.rem, h.cmdWord, h.cmdOperand, h.srcExhausted⟩
    resp := fun hp => by rw [h.busy_left] at hp; cases hp }

theorem SameMeaning.accept {s t : State} (h : SameMeaning s t) (e : PortIn) :
    SameCommand (accept e s) (accept e t) :=
  { h with cmdWord := rfl, cmdOperand := rfl, srcExhausted := rfl }

theorem SameCommand.respond {s t : State} (h : SameCommand s t) (v : Word) :
    SameMeaning (respond v s) (respond v t) :=
  { h with phase := rfl, busy := nofun, resp := fun _ => ⟨rfl, rfl⟩ }

theorem SameCommand.raise {s t : State} (h : SameCommand s t) (e : Status) :
    SameMeaning (raise e s) (raise e t) :=
  { h with
    phase := rfl
    busy := nofun
    resp := fun _ => ⟨rfl, congrArg Config.freeRspData h.drawn⟩
    drawn := congrArg (· + 1) h.drawn }

theorem SameCommand.beginRead {s t : State} (h : SameCommand s t) (n : Count) :
    SameInFlight (beginRead n s) (beginRead n t) :=
  { h with busy_left := rfl, busy_right := rfl, acc := rfl, rem := rfl }

/-- `ALIGN` leaves no residue where there was none, so that it brings no meaningless bit back. -/
theorem SameCommand.align {s t : State} (h : SameCommand s t) :
    SameCommand { s with rlen := alignedLen s.rlen } { t with rlen := alignedLen t.rlen } :=
  { h with
    rlen := congrArg alignedLen h.rlen
    rbyte := fun hr => h.rbyte fun h0 =>
      hr ((rlen_eq_zero_iff _).1 (alignedLen_of_le_seven (by omega))) }

theorem SameInFlight.setInputs {s t : State} (h : SameInFlight s t) (es : List PortIn) :
    SameInFlight (setInputs es s) (setInputs es t) :=
  { h with inputs := rfl }

theorem SameInFlight.takeByte {s t : State} (h : SameInFlight s t) (b : Byte) (es : List PortIn) :
    SameInFlight (takeByte b es s) (takeByte b es t) :=
  { h with
    rlen := rfl
    rbyte := fun _ => rfl
    stream := congrArg (· ++ [b]) h.stream
    srcTaken := congrArg (· + 1) h.srcTaken
    inputs := rfl }

/-- With a residue to take from, `RBYTE` has a meaning and the chunks are equal. -/
theorem SameInFlight.takeChunk {s t : State} (h : SameInFlight s t) (hr : 1 ≤ s.rlen.toNat) :
    SameInFlight (takeChunk s) (takeChunk t) := by
  have hb : s.rbyte = t.rbyte := h.rbyte (by omega)
  have hk : chunkSize s = chunkSize t := by rw [chunkSize, chunkSize, h.rlen, h.rem]
  exact { h with
    rlen := by simp [Machine.takeChunk, h.rlen, hk]
    rbyte := fun _ => by simp [Machine.takeChunk, h.rlen, hk, hb]
    acc := by simp [Machine.takeChunk, h.rlen, h.acc, hk, hb]
    rem := by simp [Machine.takeChunk, h.rem, hk] }

/-- Two parts of a read that end alike. -/
inductive SameProgress : Progress → Progress → Prop where
  | go {s t : State} (h : SameInFlight s t) : SameProgress (.go s) (.go t)
  | failed {s t : State} (h : SameInFlight s t) : SameProgress (.failed s) (.failed t)
  | waiting {s t : State} (h : SameInFlight s t) : SameProgress (.waiting s) (.waiting t)

/-- The loops of two reads that agree go the same way, iteration by iteration. -/
theorem readLoop_same : ∀ (f : Nat) (s t : State), SameInFlight s t →
    SameProgress (readLoop f s) (readLoop f t) := by
  intro f
  induction f with
  | zero => exact fun s t h => .go h
  | succ f ih =>
    intro s t h
    obtain hm | hm := Nat.eq_zero_or_pos s.rem.toNat
    · rw [readLoop_done _ hm, readLoop_done _ (h.rem ▸ hm)]; exact .go h
    have hm' : 1 ≤ t.rem.toNat := h.rem ▸ hm
    obtain hr | hr := Nat.eq_zero_or_pos s.rlen.toNat
    · have hr' : t.rlen.toNat = 0 := h.rlen ▸ hr
      cases he : awaitReply s.inputs with
      | silent es =>
        have he' : awaitReply t.inputs = .silent es := h.inputs ▸ he
        rw [readLoop_silent f hm hr he, readLoop_silent f hm' hr' he']
        exact .waiting (h.setInputs es)
      | reply r es =>
        have he' : awaitReply t.inputs = .reply r es := h.inputs ▸ he
        cases r with
        | fail =>
          rw [readLoop_fail f hm hr he, readLoop_fail f hm' hr' he']
          exact .failed (h.setInputs es)
        | byte b =>
          rw [readLoop_byte f hm hr he, readLoop_byte f hm' hr' he']
          exact ih _ _ ((h.takeByte b es).takeChunk (by simp))
    · rw [readLoop_residue f hm hr, readLoop_residue f hm' (h.rlen ▸ hr)]
      exact ih _ _ (h.takeChunk hr)

theorem endRead_same (result : Word → Word) {p q : Progress} (h : SameProgress p q) :
    SameMeaning (endRead result p) (endRead result q) := by
  cases h with
  | go h => rw [endRead, endRead, h.acc]; exact h.toSameCommand.respond _
  | failed h => exact h.toSameCommand.raise _
  | waiting h => exact h.sameMeaning

theorem readBody_same {s t : State} (h : SameCommand s t) (result : Word → Word) (n : Count) :
    SameMeaning (readBody result n s) (readBody result n t) :=
  endRead_same result (readLoop_same _ _ _ (h.beginRead n))

theorem continueRead_same {s t : State} (h : SameInFlight s t) (result : Word → Word) :
    SameMeaning (continueRead result s) (continueRead result t) := by
  rw [continueRead, continueRead, h.rem]
  exact endRead_same result (readLoop_same _ _ _ h)

theorem exec_same {s t : State} (h : SameCommand s t) (i : Instr) : SameOutcome (exec i s) (exec i t) := by
  obtain hw | ⟨n, hw, hc⟩ | rfl | rfl | rfl := instr_cases i
  · rw [exec_of_not_wf hw, exec_of_not_wf hw]; exact h.raise _
  · rw [exec_read hw hc, exec_read hw hc]; exact readBody_same h _ n
  · rw [exec_atEnd, exec_atEnd, h.rlen, h.srcExhausted]; exact h.respond _
  · rw [exec_align, exec_align]; exact h.align.respond 0
  · rw [exec_clz, exec_clz, h.cmdOperand]; exact h.respond _

theorem runCommand_same {s t : State} (h : SameCommand s t) : SameOutcome (runCommand s) (runCommand t) := by
  cases hd : decode s.cmdWord with
  | command i => rw [runCommand_command hd, runCommand_command (h.cmdWord ▸ hd)]; exact exec_same h i
  | illegal why => rw [runCommand_illegal hd, runCommand_illegal (h.cmdWord ▸ hd)]; exact h.raise _

theorem resumeCommand_same {s t : State} (h : SameInFlight s t) :
    SameOutcome (resumeCommand s) (resumeCommand t) := by
  cases hd : decode s.cmdWord with
  | illegal why =>
    rw [resumeCommand_illegal hd, resumeCommand_illegal (h.cmdWord ▸ hd)]
    exact h.toSameCommand.raise _
  | command i =>
    have hd' : decode t.cmdWord = .command i := h.cmdWord ▸ hd
    cases hc : i.readCount with
    | none => rw [resumeCommand_direct hd hc, resumeCommand_direct hd' hc]; exact exec_same h.toSameCommand i
    | some n => rw [resumeCommand_read hd hc, resumeCommand_read hd' hc]; exact continueRead_same h _

/-! The same for the events of the interface. -/

theorem SameMeaning.edge {s t : State} (h : SameMeaning s t) : s.edge = t.edge := by
  rw [State.edge, State.edge, h.inputs]

theorem SameMeaning.pastEdge {s t : State} (h : SameMeaning s t) : SameMeaning (pastEdge s) (pastEdge t) :=
  { h with inputs := congrArg List.tail h.inputs }

theorem SameMeaning.deliver {s t : State} (h : SameMeaning s t) : SameMeaning (deliver s) (deliver t) :=
  { h with phase := rfl, busy := nofun, resp := nofun, drawn := congrArg (· + 1) h.drawn }

theorem SameMeaning.srcReq {s t : State} (h : SameMeaning s t) : s.srcReq = t.srcReq := by
  by_cases hp : s.phase = .busy
  · have hf := h.inFlight hp
    rw [State.srcReq, State.srcReq, h.phase, h.rlen, hf.rem, hf.cmdWord]
  · rw [srcReq_of_phase_ne_busy hp, srcReq_of_phase_ne_busy (h.phase ▸ hp)]

theorem SameMeaning.resetEdge {s t : State} (h : SameMeaning s t) (e : PortIn) :
    SameMeaning (resetEdge e s) (resetEdge e t) :=
  { h with
    rlen := rfl
    rbyte := fun hr => absurd rfl hr
    phase := rfl
    busy := nofun
    resp := nofun
    stream := rfl
    srcTaken := by simp only [resetEdge_srcTaken, takenAtReset, h.srcReq, h.srcTaken]
    wasReset := rfl
    drawn := congrArg (· + 1) h.drawn }

theorem acceptCommand_same {s t : State} (h : SameMeaning s t) (e : PortIn) :
    SameOutcome (acceptCommand e s) (acceptCommand e t) := by
  rw [acceptCommand, acceptCommand, ← h.wasReset]
  split
  · exact runCommand_same (h.accept e)
  · rfl

/-- Settles O46: event by event of the interface, the same event in both states. -/
theorem nothingDependsOnMeaninglessRegisters : Obligations.NothingDependsOnMeaninglessRegisters := by
  intro s t h
  have he := h.edge
  have hph := h.phase
  obtain ⟨hr, hs⟩ | ⟨hr, hp, hv, hs⟩ | ⟨hr, hp, hv, hs⟩ | ⟨hr, hp, hs⟩ | ⟨hr, hp, hv, hs⟩ | ⟨hr, hp, hv, hs⟩ :=
    step_cases s
  · rw [hs, step_of_rst (he ▸ hr), ← he]; exact h.pastEdge.resetEdge _
  · rw [hs, step_of_idle_offer (he ▸ hr) (hph ▸ hp) (he ▸ hv), ← he]; exact acceptCommand_same h.pastEdge _
  · rw [hs, step_of_idle_quiet (he ▸ hr) (hph ▸ hp) (he ▸ hv)]; exact h.pastEdge
  · rw [hs, step_of_busy (he ▸ hr) (hph ▸ hp)]; exact resumeCommand_same (h.inFlight hp)
  · rw [hs, step_of_resp_ready (he ▸ hr) (hph ▸ hp) (he ▸ hv)]; exact h.pastEdge.deliver
  · rw [hs, step_of_resp_wait (he ▸ hr) (hph ▸ hp) (he ▸ hv)]; exact h.pastEdge

end Sys2Proof.Machine

/-! PROOFS. The source (20_memory.md): a wait cut in two (R44), the bits of the stream (R46), and the list
source in closed loop (R54). -/

namespace Sys2Proof.Machine

/-! What a command that waits can be. -/

/-- Only a legal read can leave the core busy. -/
theorem exec_busy {i : Instr} {s t : State} (h : exec i s = .next t) (hp : t.phase = .busy) :
    ∃ n, i.wf = true ∧ i.readCount = some n := by
  obtain hw | hread | rfl | rfl | rfl := instr_cases i
  · rw [exec_of_not_wf hw] at h; cases h; cases hp
  · exact hread
  · rw [exec_atEnd] at h; cases h; cases hp
  · rw [exec_align] at h; cases h; cases hp
  · rw [exec_clz] at h; cases h; cases hp

/-- Only a read can be left busy by going on. -/
theorem resumeCommand_busy {s t : State} (h : resumeCommand s = .next t) (hp : t.phase = .busy) :
    ∃ i n, decode s.cmdWord = .command i ∧ i.readCount = some n := by
  cases hd : decode s.cmdWord with
  | illegal why => rw [resumeCommand_illegal hd] at h; cases h; cases hp
  | command i =>
    cases hc : i.readCount with
    | some n => exact ⟨i, n, rfl, hc⟩
    | none =>
      rw [resumeCommand_direct hd hc] at h
      obtain ⟨n, -, hn⟩ := exec_busy h hp
      rw [hc] at hn; cases hn

/-- A read is left busy by a fetch that is not answered, and by nothing else. -/
theorem endRead_busy {result : Word → Word} {p : Progress} (h : (endRead result p).phase = .busy) :
    p = .waiting (endRead result p) := by
  cases p with
  | go | failed => cases h
  | waiting => rfl

/-! A wait cut in two (20_memory.md R44). -/

/-- The edges of a wait that ends with no answer and no reset may be left out. -/
theorem awaitReply_append_of_silent {es : List PortIn} (es' : List PortIn) (h : awaitReply es = .silent []) :
    awaitReply (es ++ es') = awaitReply es' := by
  induction es with
  | nil => rfl
  | cons e es ih =>
    by_cases hr : e.rst = true
    · simp [awaitReply, hr] at h
    by_cases ha : e.srcAck = true
    · simp [awaitReply, hr, ha] at h
    · rw [awaitReply, if_neg hr, if_neg ha] at h
      rw [List.cons_append, awaitReply, if_neg hr, if_neg ha, ih h]

/-- An answer comes before the edges that follow it. -/
theorem awaitReply_append_of_reply {es rest : List PortIn} {r : SrcReply} (es' : List PortIn)
    (h : awaitReply es = .reply r rest) : awaitReply (es ++ es') = .reply r (rest ++ es') := by
  induction es with
  | nil => cases h
  | cons e es ih =>
    by_cases hr : e.rst = true
    · simp [awaitReply, hr] at h
    by_cases ha : e.srcAck = true
    · rw [awaitReply, if_neg hr, if_pos ha] at h
      cases h
      rw [List.cons_append, awaitReply, if_neg hr, if_pos ha]
    · rw [awaitReply, if_neg hr, if_neg ha] at h
      rw [List.cons_append, awaitReply, if_neg hr, if_neg ha, ih h]

/-- A loop that stands before a fetch reads of its edges only how they answer. -/
theorem readLoop_congr_awaitReply {s : State} {es es' : List PortIn} (f : Nat) (hm : 1 ≤ s.rem.toNat)
    (hr : s.rlen.toNat = 0) (h : awaitReply es = awaitReply es') :
    readLoop (f + 1) (setInputs es s) = readLoop (f + 1) (setInputs es' s) := by
  cases he : awaitReply es' with
  | silent rest =>
    rw [readLoop_silent (s := setInputs es s) f hm hr (h.trans he),
      readLoop_silent (s := setInputs es' s) f hm hr he]
    rfl
  | reply r rest =>
    cases r with
    | fail =>
      rw [readLoop_fail (s := setInputs es s) f hm hr (h.trans he),
        readLoop_fail (s := setInputs es' s) f hm hr he]
      rfl
    | byte b =>
      rw [readLoop_byte (s := setInputs es s) f hm hr (h.trans he),
        readLoop_byte (s := setInputs es' s) f hm hr he]
      rfl

/-- A loop that used up the edges `es` and waits goes on over `es'` as the loop over both would. -/
theorem readLoop_append (es' : List PortIn) : ∀ (f : Nat) (s : State) (es : List PortIn) (u : State),
    s.rem.toNat ≤ f → readLoop f (setInputs es s) = .waiting u → u.inputs = [] →
    readLoop f (setInputs (es ++ es') s) = readLoop u.rem.toNat (setInputs es' u) := by
  intro f
  induction f with
  | zero => intro s es u _ h _; cases h
  | succ f ih =>
    intro s es u hf h hin
    obtain hm | hm := Nat.eq_zero_or_pos s.rem.toNat
    · rw [readLoop_done (s := setInputs es s) _ hm] at h; cases h
    have iteration : ∀ (t : State) (rest : List PortIn), t.rem = s.rem → 1 ≤ t.rlen.toNat →
        readLoop f (setInputs rest (takeChunk t)) = .waiting u →
        readLoop f (setInputs (rest ++ es') (takeChunk t)) = readLoop u.rem.toNat (setInputs es' u) := by
      intro t rest ht hr hl
      have hk : 1 ≤ chunkSize t := chunkSize_pos (by rw [ht]; exact hm) hr
      refine ih (takeChunk t) rest u ?_ hl hin
      rw [takeChunk_rem_toNat, ht]; omega
    obtain hr | hr := Nat.eq_zero_or_pos s.rlen.toNat
    · cases he : awaitReply es with
      | silent rest =>
        rw [readLoop_silent (s := setInputs es s) f hm hr he] at h
        cases h
        obtain rfl : rest = [] := hin
        rw [readLoop_congr_awaitReply f hm hr (awaitReply_append_of_silent es' he)]
        exact readLoop_fuel (f + 1) (setInputs es' s) hf
      | reply r rest =>
        have he' := awaitReply_append_of_reply es' he
        cases r with
        | fail => rw [readLoop_fail (s := setInputs es s) f hm hr he] at h; cases h
        | byte b =>
          rw [readLoop_byte (s := setInputs es s) f hm hr he] at h
          rw [readLoop_byte (s := setInputs (es ++ es') s) f hm hr he']
          exact iteration (takeByte b [] s) rest rfl (by simp) h
    · rw [readLoop_residue (s := setInputs es s) f hm hr] at h
      rw [readLoop_residue (s := setInputs (es ++ es') s) f hm hr]
      exact iteration s es rfl hr h

/-- The same of a whole read, however it ends after the wait. -/
theorem continueRead_append {result : Word → Word} {s : State} {es : List PortIn} (es' : List PortIn)
    (hp : (continueRead result (setInputs es s)).phase = .busy)
    (hin : (continueRead result (setInputs es s)).inputs = []) :
    continueRead result (setInputs es' (continueRead result (setInputs es s))) =
      continueRead result (setInputs (es ++ es') s) :=
  congrArg (endRead result) (readLoop_append es' _ s es _ (Nat.le_refl _) (endRead_busy hp) hin).symm

theorem edge_rst_of_head {s : State} (h : ∀ e ∈ s.inputs.head?, e.rst = false) : s.edge.rst = false := by
  rw [State.edge]
  cases hs : s.inputs.head? with
  | none => rfl
  | some e => exact h e hs

/-- A busy read goes on with the next step. -/
theorem step_continueRead {s : State} {i : Instr} {n : Count} (hp : s.phase = .busy)
    (hd : decode s.cmdWord = .command i) (hc : i.readCount = some n)
    (hr : ∀ e ∈ s.inputs.head?, e.rst = false) : step s = .next (continueRead (readResult i) s) := by
  rw [step_of_busy (edge_rst_of_head hr) hp, resumeCommand_read hd hc]

theorem continueRead_cmdWord (result : Word → Word) (s : State) :
    (continueRead result s).cmdWord = s.cmdWord :=
  (endRead_frame result (readLoop_frame _ _)).cmdWord

/-- A command that waited goes on over later edges as over all the edges at once. -/
theorem step_after_exec {i : Instr} {s t : State} {es es' : List PortIn} (hd : decode s.cmdWord = .command i)
    (h : exec i (setInputs es s) = .next t) (hp : t.phase = .busy) (hin : t.inputs = [])
    (hr : ∀ e ∈ es'.head?, e.rst = false) : step (setInputs es' t) = exec i (setInputs (es ++ es') s) := by
  obtain ⟨n, hw, hc⟩ := exec_busy h hp
  have hd' : decode (setInputs es' t).cmdWord = .command i := by
    rw [setInputs_cmdWord, (exec_frame h).cmdWord]; exact hd
  rw [step_continueRead (s := setInputs es' t) hp hd' hc hr, exec_read hw hc]
  rw [exec_read hw hc] at h
  cases h
  exact congrArg _ (continueRead_append (s := beginRead n s) es' hp hin)

/-- So does a step that resumed a read and waited again. -/
theorem step_after_step {s t : State} {es es' : List PortIn} (hs : s.phase = .busy)
    (hes : ∀ e ∈ es.head?, e.rst = false) (h : step (setInputs es s) = .next t) (hp : t.phase = .busy)
    (hin : t.inputs = []) (hr : ∀ e ∈ es'.head?, e.rst = false) :
    step (setInputs es' t) = step (setInputs (es ++ es') s) := by
  have hres := h
  rw [step_of_busy (s := setInputs es s) (edge_rst_of_head hes) hs] at hres
  obtain ⟨i, n, hd, hc⟩ := resumeCommand_busy hres hp
  have hboth : ∀ e ∈ (es ++ es').head?, e.rst = false := by
    cases es with
    | nil => exact hr
    | cons e es => exact hes
  rw [step_continueRead (s := setInputs es s) hs hd hc hes] at h
  cases h
  rw [step_continueRead (s := setInputs (es ++ es') s) hs hd hc hboth,
    step_continueRead (s := setInputs es' _) hp ((congrArg decode (continueRead_cmdWord _ _)).trans hd) hc hr,
    continueRead_append es' hp hin]

/-- Settles O22: by the two forms of a wait, the first of a command and a repeated one. -/
theorem waitingReadGoesOnAsIfNeverStopped : Obligations.WaitingReadGoesOnAsIfNeverStopped :=
  ⟨fun _ _ _ _ _ hd h hp hin hr => step_after_exec hd h hp hin hr,
    fun _ _ _ _ hs hes h hp hin hr => step_after_step hs hes h hp hin hr⟩

/-! A legal read by what the source answers: it brings its bytes, or comes to stand before a fetch that fails
or is not answered (41_read_unsigned.md R94, R98; 20_memory.md R44). -/

/-- The edges bring `k` bytes, or fewer and then a failure or no answer. -/
theorem suppliedBytes_cases (k : Nat) (es : List PortIn) :
    (∃ bs rest, suppliedBytes k es = some (bs, rest)) ∨
    ∃ j bs rest rest', j < k ∧ suppliedBytes j es = some (bs, rest) ∧
      (awaitReply rest = .reply .fail rest' ∨ awaitReply rest = .silent rest') := by
  induction k generalizing es with
  | zero => exact .inl ⟨[], es, rfl⟩
  | succ k ih =>
    cases he : awaitReply es with
    | silent rest' => exact .inr ⟨0, [], es, rest', by omega, rfl, .inr he⟩
    | reply r es' =>
      cases r with
      | fail => exact .inr ⟨0, [], es, es', by omega, rfl, .inl he⟩
      | byte b =>
        obtain ⟨bs, rest, hs⟩ | ⟨j, bs, rest, rest', hj, hs, hend⟩ := ih es'
        · exact .inl ⟨b :: bs, rest, by simp [suppliedBytes, he, hs]⟩
        · exact .inr ⟨j + 1, b :: bs, rest, rest', by omega, by simp [suppliedBytes, he, hs], hend⟩

section Reads

variable {i : Instr} {n : Count} {s : State} {bs : List Byte} {rest rest' : List PortIn} {j : Nat}
  (hinv : ResidueInv s) (hw : i.wf = true) (hc : i.readCount = some n)
include hinv hw hc

/-- A read whose bytes the source supplies completes in closed form (R94). -/
theorem exec_read_supplied (hs : suppliedBytes (readFetches s.rlen.toNat n.toNat) s.inputs = some (bs, rest)) :
    ∃ rb acc, exec i s = .next (respond (readResult i acc)
        (readState (beginRead n s) rb (BitVec.ofNat 4 (readLeftover s.rlen.toNat n.toNat)) acc 0 bs rest)) ∧
      acc.toNat = readValue s n.toNat bs ∧
      (n.toNat ≠ 0 → rb.toNat = readResidue s n.toNat bs) ∧ (n.toNat = 0 → rb = s.rbyte) := by
  obtain ⟨rb, acc, hl, ha, hb, hb0⟩ := readLoop_supplied n.toNat (beginRead n s) bs rest
    (beginRead_ready hinv (readCount_le hw hc)) (Nat.le_refl _) hs
  refine ⟨rb, acc, ?_, ?_, hb, hb0⟩
  · rw [exec_read hw hc, readBody, hl]; rfl
  · rw [ha]; exact (congrArg (· + _) (Nat.zero_mul _)).trans (Nat.zero_add _)

/-- A read that needs another byte after the first `j` has taken all the bits before it (R92, R98). -/
theorem exec_read_drained (hj : j < readFetches s.rlen.toNat n.toNat)
    (hs : suppliedBytes j s.inputs = some (bs, rest)) :
    ∃ g rb acc t, t = readState (beginRead n s) rb 0 acc
        (BitVec.ofNat 7 (n.toNat - (s.rlen.toNat + 8 * j))) bs rest ∧
      exec i s = .next (endRead (readResult i) (readLoop (g + 1) t)) ∧ 1 ≤ t.rem.toNat ∧
      acc.toNat = readSpan s bs := by
  obtain ⟨g, rb, acc, hl, -, hm, ha⟩ := readLoop_drained n.toNat (beginRead n s) j bs rest
    (beginRead_ready hinv (readCount_le hw hc)) (Nat.le_refl _) hj hs
  refine ⟨g, rb, acc, _, rfl, ?_, ?_, ?_⟩
  · rw [exec_read hw hc, readBody, hl]; rfl
  · have hn := n.isLt
    rw [beginRead_rem, beginRead_rlen] at hm
    show 1 ≤ (BitVec.ofNat 7 _).toNat
    rw [BitVec.toNat_ofNat, Nat.mod_eq_of_lt (by omega)]
    exact hm
  · rw [ha]; exact (congrArg (· + _) (Nat.zero_mul _)).trans (Nat.zero_add _)

/-- A read whose next fetch fails ends with `ERR_SOURCE` and no residue (R98, 60_exceptions.md R147). -/
theorem exec_read_failed (hj : j < readFetches s.rlen.toNat n.toNat)
    (hs : suppliedBytes j s.inputs = some (bs, rest)) (he : awaitReply rest = .reply .fail rest') :
    ∃ rb acc rm, exec i s =
      .next (raise .errSource (readState (beginRead n s) rb 0 acc rm bs rest')) := by
  obtain ⟨g, rb, acc, t, rfl, ht, hm, -⟩ := exec_read_drained hinv hw hc hj hs
  exact ⟨rb, acc, _, by rw [ht, readLoop_fail g hm rfl he]; rfl⟩

/-- A read whose next fetch is not answered waits with all its bits in `ACC` (20_memory.md R44). -/
theorem exec_read_waits (hj : j < readFetches s.rlen.toNat n.toNat)
    (hs : suppliedBytes j s.inputs = some (bs, rest)) (he : awaitReply rest = .silent rest') :
    ∃ rb acc t, t = readState (beginRead n s) rb 0 acc
        (BitVec.ofNat 7 (n.toNat - (s.rlen.toNat + 8 * j))) bs rest' ∧
      exec i s = .next t ∧ 1 ≤ t.rem.toNat ∧ acc.toNat = readSpan s bs := by
  obtain ⟨g, rb, acc, t, rfl, ht, hm, ha⟩ := exec_read_drained hinv hw hc hj hs
  exact ⟨rb, acc, _, rfl, by rw [ht, readLoop_silent g hm rfl he]; rfl, hm, ha⟩

/-- A read that ends with `OK` was supplied with its bytes. -/
theorem suppliedBytes_of_exec_ok {t : State} (h : exec i s = .next t) (hp : t.phase = .resp)
    (hok : t.rspStatus = .ok) :
    ∃ bs rest, suppliedBytes (readFetches s.rlen.toNat n.toNat) s.inputs = some (bs, rest) := by
  obtain hs | ⟨j, bs, rest, rest', hj, hs, hf | hf⟩ :=
    suppliedBytes_cases (readFetches s.rlen.toNat n.toNat) s.inputs
  · exact hs
  · obtain ⟨rb, acc, rm, ht⟩ := exec_read_failed hinv hw hc hj hs hf
    rw [h] at ht; cases ht; cases hok
  · obtain ⟨rb, acc, u, rfl, ht, -, -⟩ := exec_read_waits hinv hw hc hj hs hf
    rw [h] at ht; cases ht; cases hp

end Reads

/-- The residue and the bytes fetched cover the bits of the read (R94). -/
theorem readLeftover_add (r m : Nat) : readLeftover r m + m = r + 8 * readFetches r m := by
  simp only [readLeftover, readFetches, fetchesFor]; omega

theorem readLeftover_toNat {r : Nat} (m : Nat) (hr : r ≤ 7) :
    (BitVec.ofNat 4 (readLeftover r m)).toNat = readLeftover r m := by
  have := readLeftover_le_seven (m := m) hr
  rw [BitVec.toNat_ofNat, Nat.mod_eq_of_lt (by omega)]

/-- The value of a read has no more digits than bits were read. -/
theorem readValue_lt {s : State} {bs : List Byte} (n : Nat) (hlen : bs.length = readFetches s.rlen.toNat n) :
    readValue s n bs < 2 ^ n := by
  rw [readValue, Nat.div_lt_iff_lt_mul (Nat.two_pow_pos _), ← Nat.pow_add, Nat.add_comm, readLeftover_add, ← hlen]
  exact spanValue_lt_of_lt bs (residue_lt s)

/-! The bit string of the source as a number (20_memory.md R45, R46). -/

theorem bitsValue_append (xs ys : List Bool) :
    bitsValue (xs ++ ys) = bitsValue xs * 2 ^ ys.length + bitsValue ys := by
  induction ys using List.reverseRecOn with
  | nil => simp [bitsValue]
  | append_singleton ys y ih =>
    simp only [bitsValue, ← List.append_assoc, List.foldl_concat, List.length_append,
      List.length_singleton, pow_succ] at ih ⊢
    rw [ih]; ring

theorem bitsValue_lt (xs : List Bool) : bitsValue xs < 2 ^ xs.length := by
  induction xs using List.reverseRecOn with
  | nil => simp [bitsValue]
  | append_singleton xs x ih =>
    have hx : bitsValue [x] < 2 := by cases x <;> decide
    rw [bitsValue_append, List.length_append, List.length_singleton, pow_succ]
    omega

/-- The first digits of a number. -/
theorem bitsValue_take (xs : List Bool) (k : Nat) :
    bitsValue (xs.take k) = bitsValue xs / 2 ^ (xs.length - k) := by
  have h := bitsValue_append (xs.take k) (xs.drop k)
  have hlt := bitsValue_lt (xs.drop k)
  rw [List.take_append_drop, List.length_drop] at h
  rw [List.length_drop] at hlt
  rw [h, Nat.mul_comm, Nat.mul_add_div (Nat.two_pow_pos _), Nat.div_eq_of_lt hlt, Nat.add_zero]

/-- The digits after the first ones. -/
theorem bitsValue_drop (xs : List Bool) (k : Nat) :
    bitsValue (xs.drop k) = bitsValue xs % 2 ^ (xs.length - k) := by
  have h := bitsValue_append (xs.take k) (xs.drop k)
  have hlt := bitsValue_lt (xs.drop k)
  rw [List.take_append_drop, List.length_drop] at h
  rw [List.length_drop] at hlt
  rw [h, Nat.mul_comm, Nat.mul_add_mod, Nat.mod_eq_of_lt hlt]

theorem byteBits_length (b : Byte) : (byteBits b).length = 8 := by simp [byteBits]

theorem bitsValue_byteBits : ∀ b : Byte, bitsValue (byteBits b) = b.toNat := by decide

theorem bitString_cons (b : Byte) (bs : List Byte) : bitString (b :: bs) = byteBits b ++ bitString bs := rfl

theorem bitString_length (bs : List Byte) : (bitString bs).length = 8 * bs.length := by
  induction bs with
  | nil => rfl
  | cons b bs ih => rw [bitString_cons, List.length_append, byteBits_length, ih, List.length_cons]; omega

/-- The bit string and the bytes are digits of one number. -/
theorem bitsValue_bitString (bs : List Byte) : bitsValue (bitString bs) = spanValue 0 bs := by
  induction bs with
  | nil => rfl
  | cons b bs ih =>
    rw [bitString_cons, bitsValue_append, bitsValue_byteBits, bitString_length, ih, spanValue_cons,
      spanValue_eq_add (0 * 256 + b.toNat), Nat.zero_mul, Nat.zero_add]

theorem spanValue_append (v : Nat) (bs cs : List Byte) :
    spanValue v (bs ++ cs) = spanValue (spanValue v bs) cs := List.foldl_append

/-- The residue is the last `RLEN` bits handed over (10_state.md R20). -/
theorem spanValue_stream_mod {s : State} (hr : ResidueInv s) (hst : StreamInv s) :
    spanValue 0 s.stream % 2 ^ s.rlen.toNat = s.residue := by
  obtain h0 | h1 := Nat.eq_zero_or_pos s.rlen.toNat
  · rw [residue_empty h0, h0, Nat.pow_zero, Nat.mod_one]
  · obtain ⟨b, hlast, hb⟩ := hst h1
    obtain ⟨cs, hcs⟩ := List.getLast?_eq_some_iff.1 hlast
    have hdvd : 2 ^ s.rlen.toNat ∣ 256 := Nat.pow_dvd_pow 2 (Nat.le_trans hr.1 (by decide : 7 ≤ 8))
    rw [hcs, spanValue_append, spanValue_cons, spanValue_nil, Nat.add_mod,
      Nat.mod_eq_zero_of_dvd (Dvd.dvd.mul_left hdvd _), Nat.zero_add, Nat.mod_mod, ← hb, State.residue,
      Nat.mod_eq_of_lt (hr.2 h1)]

/-- The bits of the stream from the cursor on, with further bytes, are the string `T` of R94. -/
theorem bitsValue_drop_pos {s : State} (hr : ResidueInv s) (hst : StreamInv s) (bs : List Byte) (k : Nat)
    (hk : k + s.rlen.toNat = 8 * s.stream.length) :
    bitsValue ((bitString (s.stream ++ bs)).drop k) = readSpan s bs := by
  have hlen : (bitString (s.stream ++ bs)).length - k = s.rlen.toNat + 8 * bs.length := by
    rw [bitString_length, List.length_append]; omega
  have hlt := spanValue_lt bs
  rw [bitsValue_drop, hlen, bitsValue_bitString, spanValue_append, spanValue_eq_add, readSpan,
    spanValue_eq_add s.residue, ← spanValue_stream_mod hr hst, Nat.add_comm s.rlen.toNat, Nat.pow_add, Nat.mod_mul,
    Nat.mul_comm _ (2 ^ (8 * bs.length)), Nat.mul_add_mod, Nat.mod_eq_of_lt hlt,
    Nat.mul_add_div (Nat.two_pow_pos _), Nat.div_eq_of_lt hlt, Nat.add_zero]
  ring

/-! The results of the reads as numbers (41_read_unsigned.md R90, R91; 42_read_signed.md R110). -/

theorem byteResult_toNat {acc : Word} (h : acc.toNat < 2 ^ 8) : (byteResult acc).toNat = acc.toNat := by
  rw [byteResult, BitVec.toNat_setWidth_of_le (by decide), BitVec.toNat_setWidth, Nat.mod_eq_of_lt h]

/-- The signed result is the two's complement value of its `n` bits. -/
theorem signedResult_toInt {n : Count} {acc : Word} (hn : 1 ≤ n.toNat) (hn' : n.toNat ≤ 32)
    (ha : acc.toNat < 2 ^ n.toNat) :
    (signedResult n acc).toInt =
      if acc.toNat < 2 ^ (n.toNat - 1) then (acc.toNat : Int) else (acc.toNat : Int) - 2 ^ n.toNat := by
  have hframe : n.toNat - 1 + (Config.SFRAME_W - n.toNat) = 31 := by simp only [Config.SFRAME_W]; omega
  rw [signedResult, BitVec.toInt_signExtend_of_le (by decide), BitVec.toInt_sshiftRight,
    Int.shiftRight_eq_div_pow]
  generalize Config.SFRAME_W - n.toNat = d at hframe ⊢
  have hpow : 2 ^ n.toNat * 2 ^ d = 2 ^ 32 := by rw [← pow_add]; congr 1; omega
  have hhalf : 2 ^ (n.toNat - 1) * 2 ^ d = 2 ^ 31 := by rw [← pow_add, hframe]
  have hd : 0 < 2 ^ d := Nat.two_pow_pos d
  have hfit : acc.toNat * 2 ^ d < 2 ^ 32 := hpow ▸ Nat.mul_lt_mul_of_pos_right ha hd
  have hx : (acc.setWidth 32 <<< d).toNat = acc.toNat * 2 ^ d := by
    rw [BitVec.toNat_shiftLeft, BitVec.toNat_setWidth, Nat.shiftLeft_eq, Nat.mod_mul_mod,
      Nat.mod_eq_of_lt hfit]
  have hcond : 2 * (acc.toNat * 2 ^ d) < 2 ^ 32 ↔ acc.toNat < 2 ^ (n.toNat - 1) := by
    rw [← Nat.mul_lt_mul_right (b := acc.toNat) hd, hhalf]; omega
  have hd' : ((2 ^ d : Nat) : Int) ≠ 0 := by positivity
  rw [BitVec.toInt_eq_toNat_cond, hx, ← hpow, Nat.cast_mul, Nat.cast_mul, ← Int.sub_mul, hpow]
  simp only [hcond]
  split
  · exact Int.mul_ediv_cancel _ hd'
  · rw [Int.mul_ediv_cancel _ hd', Nat.cast_pow, Nat.cast_ofNat]

/-- `READ_UNSIGNED` and `READ_BYTE` answer the number in `ACC`. -/
theorem readResult_toNat {i : Instr} {n : Count} {acc : Word} (hc : i.readCount = some n)
    (hi : i ≠ .readSigned n) (ha : acc.toNat < 2 ^ n.toNat) : (readResult i acc).toNat = acc.toNat := by
  cases i with
  | readUnsigned m => rfl
  | readByte => cases hc; exact byteResult_toNat ha
  | readSigned m => cases hc; exact absurd rfl hi
  | atEnd | align | clz => cases hc

/-! The cursor (10_state.md R28). -/

/-- The residue was handed over, so that the cursor stands that far before the end of the bytes. -/
theorem pos_add_rlen {s : State} (hr : ResidueInv s) (hst : StreamInv s) :
    0 ≤ s.pos ∧ s.pos.toNat + s.rlen.toNat = 8 * s.stream.length := by
  have hle : s.rlen.toNat ≤ 8 * s.stream.length := by
    obtain h0 | h1 := Nat.eq_zero_or_pos s.rlen.toNat
    · omega
    · obtain ⟨b, hlast, -⟩ := hst h1
      have hlen := List.length_pos_of_mem (List.mem_of_getLast? hlast)
      have := hr.1
      omega
  have hpos : s.pos = 8 * (s.stream.length : Int) - s.rlen.toNat := rfl
  omega

/-- A completed read of `n` bits moves the cursor by `n`. -/
theorem pos_of_read {s t : State} {n : Nat} {bs : List Byte} (hstream : t.stream = s.stream ++ bs)
    (hlen : bs.length = readFetches s.rlen.toNat n)
    (hrlen : t.rlen.toNat = readLeftover s.rlen.toNat n) : t.pos = s.pos + n := by
  have hsum := readLeftover_add s.rlen.toNat n
  rw [State.pos, State.pos, State.nfetch, State.nfetch, hstream, hrlen, List.length_append]
  omega

/-- The value of a read is the number whose digits are the `n` bits of the stream at the cursor. -/
theorem readValue_eq_bitsValue {s : State} (hr : ResidueInv s) (hst : StreamInv s) {n : Nat} {bs : List Byte}
    (hlen : bs.length = readFetches s.rlen.toNat n) :
    readValue s n bs = bitsValue (((bitString (s.stream ++ bs)).drop s.pos.toNat).take n) := by
  obtain ⟨-, hpos⟩ := pos_add_rlen hr hst
  have hsum := readLeftover_add s.rlen.toNat n
  have hrest : ((bitString (s.stream ++ bs)).drop s.pos.toNat).length - n = readLeftover s.rlen.toNat n := by
    rw [List.length_drop, bitString_length, List.length_append]; omega
  rw [bitsValue_take, hrest, bitsValue_drop_pos hr hst bs _ hpos, readValue]

/-- A command that ends with `OK` was legal. -/
theorem wf_of_exec_ok {i : Instr} {s t : State} (h : exec i s = .next t) (hok : t.rspStatus = .ok) :
    i.wf = true := by
  cases hw : i.wf with
  | true => rfl
  | false => rw [exec_of_not_wf hw] at h; cases h; cases hok

/-- Settles O24: the read was supplied with its bytes; then its closed form, and the string `T` as the bits of
the stream from the cursor on. -/
theorem readsDeliverConsecutiveBitsOfTheStream : Obligations.ReadsDeliverConsecutiveBitsOfTheStream := by
  intro i s t n hr hst hc h hp hok
  have hw := wf_of_exec_ok h hok
  obtain ⟨bs, rest, hs⟩ := suppliedBytes_of_exec_ok hr hw hc h hp hok
  obtain ⟨rb, acc, he, ha, -, -⟩ := exec_read_supplied hr hw hc hs
  have hlen := suppliedBytes_length hs
  have hv := readValue_lt n.toNat hlen
  obtain ⟨h0, hpos⟩ := pos_add_rlen hr hst
  rw [h] at he
  cases he
  refine ⟨_, readValue_eq_bitsValue hr hst hlen, h0, pos_of_read rfl hlen (readLeftover_toNat _ hr.1),
    List.prefix_append _ _, ?_, ?_, ?_⟩
  · have hsum := readLeftover_add s.rlen.toNat n.toNat
    show _ ≤ (bitString (s.stream ++ bs)).length
    rw [bitString_length, List.length_append]
    omega
  · exact fun hi => (readResult_toNat hc hi (ha ▸ hv)).trans ha
  · rintro rfl
    obtain ⟨h1, h32⟩ := (readSigned_wf_iff n).1 hw
    rw [← ha]
    exact signedResult_toInt h1 h32 (ha ▸ hv)

/-! Encoding, as far as an issued command needs it (30_encoding.md R60, R62). -/

theorem opField_encode (i : Instr) : opField (encode i) = i.opCode :=
  BitVec.extractLsb'_append_eq_left

theorem countField_encode (i : Instr) : countField (encode i) = i.countBits :=
  BitVec.extractLsb'_append_eq_right

theorem decode_encode (i : Instr) : decode (encode i) = .command i := by
  rw [decode, opField_encode, countField_encode]
  cases i <;> rfl

/-! The closed loop of a core and a list source (20_memory.md R54): its steps, one answer each, are one run of
the command over the answers in a row. -/

/-- The edges on which a list source hands over the bytes. -/
def byteEdges (bs : List Byte) : List PortIn := bs.map (fun b => replyEdge (.byte b))

theorem byteEdges_cons (b : Byte) (bs : List Byte) : byteEdges (b :: bs) = replyEdge (.byte b) :: byteEdges bs := rfl

theorem suppliedBytes_byteEdges (bs : List Byte) (rest : List PortIn) :
    suppliedBytes bs.length (byteEdges bs ++ rest) = some (bs, rest) := by
  induction bs with
  | nil => rfl
  | cons b bs ih => simp [byteEdges_cons, suppliedBytes, awaitReply, replyEdge, PortIn.quiet, PortIn.srcReply, ih]

theorem byteEdges_append (bs cs : List Byte) : byteEdges (bs ++ cs) = byteEdges bs ++ byteEdges cs :=
  List.map_append

theorem suppliedBytes_only_byteEdges (bs : List Byte) : suppliedBytes bs.length (byteEdges bs) = some (bs, []) := by
  simpa using suppliedBytes_byteEdges bs []

theorem replyEdge_rst (r : SrcReply) : (replyEdge r).rst = false := by cases r <;> rfl

theorem readFetches_le_eight (r : Nat) {n : Nat} (hn : n ≤ 64) : readFetches r n ≤ 8 := by
  simp only [readFetches, fetchesFor]; omega

/-- The list source is asked no more. -/
theorem serveList_no_request {s : State} (k : Nat) (bs : List Byte) (h : s.srcReq = false) :
    serveList k bs s = (s, bs) := by
  cases k with
  | zero => rfl
  | succ k => rw [serveList, if_neg (by simp [h])]

/-- A command that waits after the edges `es` gets one answer of the list source: the loop stands where the
command over `es` and that answer does. -/
theorem serveList_request {i : Instr} {s t u : State} {es : List PortIn} (k : Nat) (bs : List Byte)
    (hd : decode s.cmdWord = .command i) (ht : exec i (setInputs es s) = .next t) (hq : t.srcReq = true)
    (hin : t.inputs = []) (hu : exec i (setInputs (es ++ [replyEdge (listReply bs).1]) s) = .next u) :
    serveList (k + 1) bs t = serveList k (listReply bs).2 u := by
  have hp : t.phase = .busy := by
    by_contra hne
    rw [srcReq_of_phase_ne_busy hne] at hq
    cases hq
  have hstep : step { t with inputs := [replyEdge (listReply bs).1] } = .next u :=
    (step_after_exec hd ht hp hin (by simp [replyEdge_rst])).trans hu
  rw [serveList, if_pos hq, hstep]

section ListRead

variable {i : Instr} {n : Count} {s : State} (hinv : ResidueInv s) (hd : decode s.cmdWord = .command i)
  (hw : i.wf = true) (hc : i.readCount = some n)
include hinv hd hw hc

/-- A read that has been handed too few bytes requests the next. -/
theorem exec_byteEdges_requests {bs : List Byte} {t : State} (hlen : bs.length < readFetches s.rlen.toNat n.toNat)
    (ht : exec i (setInputs (byteEdges bs) s) = .next t) : t.srcReq = true ∧ t.inputs = [] := by
  obtain ⟨rb, acc, u, hu, he, hm, -⟩ := exec_read_waits (s := setInputs (byteEdges bs) s) hinv hw hc hlen
    (suppliedBytes_only_byteEdges bs) rfl
  rw [ht] at he
  cases he
  subst hu
  exact ⟨srcReq_of_waiting rfl hd hc rfl hm, rfl⟩

/-- The list source hands over the bytes `bs` that the read still needs after `done`. -/
theorem serveList_bytes (k : Nat) (rest : List Byte) : ∀ (bs done : List Byte) (t : State),
    (done ++ bs).length ≤ readFetches s.rlen.toNat n.toNat →
    exec i (setInputs (byteEdges done) s) = .next t →
    ∃ u, exec i (setInputs (byteEdges (done ++ bs)) s) = .next u ∧
      serveList (bs.length + k) (bs ++ rest) t = serveList k rest u := by
  intro bs
  induction bs with
  | nil => exact fun done t _ ht => ⟨t, by rwa [List.append_nil], by simp⟩
  | cons b bs ih =>
    intro done t hlen ht
    rw [List.append_cons] at hlen ⊢
    have hnext := exec_read hw hc (setInputs (byteEdges (done ++ [b])) s)
    obtain ⟨u, hu, hserve⟩ := ih (done ++ [b]) _ hlen hnext
    have hshort : done.length < readFetches s.rlen.toNat n.toNat := by
      simp only [List.length_append, List.length_cons] at hlen; omega
    obtain ⟨hq, hin⟩ := exec_byteEdges_requests hinv hd hw hc hshort ht
    refine ⟨u, hu, ?_⟩
    rw [← hserve, List.length_cons, Nat.add_right_comm]
    exact serveList_request _ _ hd ht hq hin (byteEdges_append done [b] ▸ hnext)

/-- A read over a list source with enough bytes: it is run over those it needs, and the others stay. -/
theorem serveList_enough {bs : List Byte} {t : State} (ht : exec i (setInputs [] s) = .next t)
    (hlen : readFetches s.rlen.toNat n.toNat ≤ bs.length) :
    ∃ rb acc u, u = respond (readResult i acc) (readState (beginRead n s) rb
        (BitVec.ofNat 4 (readLeftover s.rlen.toNat n.toNat)) acc 0
        (bs.take (readFetches s.rlen.toNat n.toNat)) []) ∧
      serveList 8 bs t = (u, bs.drop (readFetches s.rlen.toNat n.toNat)) ∧
      acc.toNat = readValue s n.toNat (bs.take (readFetches s.rlen.toNat n.toNat)) := by
  have h8 := readFetches_le_eight s.rlen.toNat (readCount_le hw hc)
  generalize hF : readFetches s.rlen.toNat n.toNat = F at *
  have htake : (bs.take F).length = F := List.length_take_of_le hlen
  obtain ⟨u, hu, hserve⟩ := serveList_bytes hinv hd hw hc (8 - F) (bs.drop F) (bs.take F) [] t
    (by rw [List.nil_append, htake, hF]) ht
  obtain ⟨rb, acc, he, ha, -, -⟩ := exec_read_supplied (s := setInputs (byteEdges (bs.take F)) s)
    (bs := bs.take F) (rest := []) hinv hw hc
    (by rw [setInputs_rlen, setInputs_inputs, hF]; simpa only [htake] using suppliedBytes_only_byteEdges (bs.take F))
  rw [List.nil_append, he] at hu
  cases hu
  refine ⟨rb, acc, _, rfl, ?_, ha⟩
  rw [htake, Nat.add_sub_cancel' h8, List.take_append_drop] at hserve
  exact hserve.trans (serveList_no_request _ _ (srcReq_of_phase_ne_busy (by simp)))

/-- A read over a list source with too few bytes: it takes them all and fails on the empty list. -/
theorem serveList_runs_dry {bs : List Byte} {t : State} (ht : exec i (setInputs [] s) = .next t)
    (hlen : bs.length < readFetches s.rlen.toNat n.toNat) :
    ∃ rb acc rm, serveList 8 bs t =
      (raise .errSource (readState (beginRead n s) rb 0 acc rm bs []), []) := by
  have h8 := readFetches_le_eight s.rlen.toNat (readCount_le hw hc)
  obtain ⟨u, hu, hserve⟩ := serveList_bytes hinv hd hw hc (8 - bs.length) [] bs [] t (Nat.le_of_lt hlen) ht
  rw [List.nil_append] at hu
  rw [List.append_nil, Nat.add_sub_cancel' (by omega), show 8 - bs.length = 7 - bs.length + 1 by omega] at hserve
  obtain ⟨hq, hin⟩ := exec_byteEdges_requests hinv hd hw hc hlen hu
  obtain ⟨rb, acc, rm, he⟩ := exec_read_failed (s := setInputs (byteEdges bs ++ [replyEdge .fail]) s)
    hinv hw hc hlen (suppliedBytes_byteEdges bs [replyEdge .fail]) rfl
  refine ⟨rb, acc, rm, ?_⟩
  rw [hserve, serveList_request _ [] hd hu hq hin he]
  exact serveList_no_request _ _ (srcReq_of_phase_ne_busy (by simp))

end ListRead

/-- The core that has accepted the command offered beside the list source. -/
def issued (bs : List Byte) (i : Instr) (v : Word) (s : State) : State :=
  accept (listOffer bs (encode i) v) (setInputs [] s)

theorem issueOverList_eq {i : Instr} {s t : State} (bs : List Byte) (v : Word) (hp : s.phase = .idle)
    (hreset : s.wasReset = true) (ht : exec i (issued bs i v s) = .next t) :
    issueOverList bs (encode i) v s = serveList 8 bs t := by
  have hstep : step { s with inputs := [listOffer bs (encode i) v] } = .next t := by
    rw [step_of_idle_offer (s := { s with inputs := [listOffer bs (encode i) v] }) rfl hp rfl, acceptCommand,
      pastEdge_wasReset, if_pos hreset, ← ht]
    exact runCommand_command (decode_encode i)
  rw [issueOverList, hstep]

/-- Settles O47: the closed loop is one run of the read over the bytes it needs. -/
theorem listSourceReadLeavesTheRest : Obligations.ListSourceReadLeavesTheRest := by
  intro s bs n v hinv hp hreset hn hlen
  have hw := (readUnsigned_wf_iff n).2 hn
  have hex := exec_read hw rfl (issued bs (.readUnsigned n) v s)
  obtain ⟨rb, acc, u, rfl, hserve, ha⟩ := serveList_enough (s := issued bs (.readUnsigned n) v s) hinv
    (decode_encode _) hw rfl hex hlen
  have hrlen := readLeftover_toNat n.toNat hinv.1
  exact ⟨_, (issueOverList_eq bs v hp hreset hex).trans hserve, rfl, rfl, ha, hrlen,
    pos_of_read rfl (List.length_take_of_le hlen) hrlen⟩

/-- Settles O48: for a read the closed loop is one run over all the bytes and a failure; `AT_END` asks the
source for nothing. -/
theorem listSourceRunsDry : Obligations.ListSourceRunsDry := by
  intro s bs v hinv hp hreset
  refine ⟨fun n hn hlen => ?_, ?_⟩
  · have hw := (readUnsigned_wf_iff n).2 hn
    have hex := exec_read hw rfl (issued bs (.readUnsigned n) v s)
    obtain ⟨rb, acc, rm, hserve⟩ := serveList_runs_dry (s := issued bs (.readUnsigned n) v s) hinv
      (decode_encode _) hw rfl hex hlen
    exact ⟨_, (issueOverList_eq bs v hp hreset hex).trans hserve, rfl, rfl, rfl, List.length_append⟩
  · have hex := exec_atEnd (issued bs .atEnd v s)
    refine ⟨_, (issueOverList_eq bs v hp hreset hex).trans
      (serveList_no_request _ _ (srcReq_of_phase_ne_busy (by simp))), rfl, rfl, ?_⟩
    show atEndResult s.rlen (listExhausted bs) = _
    simp only [atEndResult, rlen_eq_zero_iff, listExhausted, List.isEmpty_iff]

end Sys2Proof.Machine

/-! PROOFS. The command word (30_encoding.md R60 to R63), and the interface by its events (R66 to R68). -/

namespace Sys2Proof.Machine

/-! A command word is its two fields (R60). -/

theorem opField_append_countField (w : CmdWord) : opField w ++ countField w = w :=
  (BitVec.extractLsb'_append_extractLsb'_eq_extractLsb' rfl).trans BitVec.extractLsb'_eq_self

theorem append_toNat (op : OpCode) (n : Count) : (op ++ n).toNat = op.toNat * 128 + n.toNat := by
  rw [BitVec.toNat_append, ← Nat.shiftLeft_add_eq_or_of_lt n.isLt, Nat.shiftLeft_eq]

theorem commandWord_toNat (w : CmdWord) : w.toNat = (opField w).toNat * 128 + (countField w).toNat := by
  rw [← append_toNat, opField_append_countField]

/-- Settles O4: `{op, n}` as a number, for an encoding and for the fields of any word. -/
theorem commandWordIsOpTimes128PlusCount : Obligations.CommandWordIsOpTimes128PlusCount :=
  ⟨fun i => append_toNat i.opCode i.countBits, commandWord_toNat⟩

/-! Decoding by the operation code (R62, R63). -/

/-- Settles O2: the fields of an encoding are the command's, and its operation code names the command's row. -/
theorem decodeOfEncodeIsTheCommand : Obligations.DecodeOfEncodeIsTheCommand := decode_encode

/-- Settles O1: a legal word of the table is its command's encoding; the illegal ones are read off the opcode map. -/
theorem commandWordsDecodeAsTheTableSays : Obligations.CommandWordsDecodeAsTheTableSays :=
  ⟨decode_encode .atEnd, decode_encode (.readUnsigned 3), decode_encode (.readUnsigned 64),
    decode_encode (.readUnsigned 65), decode_encode .readByte, decode_encode (.readSigned 1),
    decode_encode (.readSigned 32), decode_encode .align, decode_encode .clz, by decide, by decide, by decide⟩

/-- The commands whose count field must be zero (R62). -/
def TakesNoCount (i : Instr) : Prop := i = .atEnd ∨ i = .readByte ∨ i = .align ∨ i = .clz

/-- What a word can decode to, by its operation code. -/
theorem decode_cases (w : CmdWord) :
    (∃ i, TakesNoCount i ∧ opField w = i.opCode ∧ decode w = withoutCount i (countField w)) ∨
    ((opField w).toNat = 1 ∧ decode w = .command (.readUnsigned (countField w))) ∨
    ((opField w).toNat = 3 ∧ decode w = .command (.readSigned (countField w))) ∨
    (6 ≤ (opField w).toNat ∧ decode w = .illegal .reservedOpcode) := by
  unfold decode TakesNoCount
  generalize opField w = op
  split
  case h_1 h => exact .inl ⟨.atEnd, by simp, BitVec.eq_of_toNat_eq h, rfl⟩
  case h_2 h => exact .inr (.inl ⟨h, rfl⟩)
  case h_3 h => exact .inl ⟨.readByte, by simp, BitVec.eq_of_toNat_eq h, rfl⟩
  case h_4 h => exact .inr (.inr (.inl ⟨h, rfl⟩))
  case h_5 h => exact .inl ⟨.align, by simp, BitVec.eq_of_toNat_eq h, rfl⟩
  case h_6 h => exact .inl ⟨.clz, by simp, BitVec.eq_of_toNat_eq h, rfl⟩
  case h_7 =>
    have hop : 6 ≤ op.toNat := by simp only [imp_false] at *; omega
    exact .inr (.inr (.inr ⟨hop, rfl⟩))

theorem TakesNoCount.countBits {i : Instr} (h : TakesNoCount i) : i.countBits = 0 := by
  obtain rfl | rfl | rfl | rfl := h <;> rfl

theorem TakesNoCount.wf {i : Instr} (h : TakesNoCount i) : i.wf = true := by
  obtain rfl | rfl | rfl | rfl := h <;> rfl

theorem TakesNoCount.opCode {i : Instr} (h : TakesNoCount i) :
    i.opCode.toNat = 0 ∨ i.opCode.toNat = 2 ∨ i.opCode.toNat = 4 ∨ i.opCode.toNat = 5 := by
  obtain rfl | rfl | rfl | rfl := h <;> decide

theorem withoutCount_eq_command {i j : Instr} {n : Count} :
    withoutCount j n = .command i ↔ n = 0 ∧ j = i := by
  rw [withoutCount]
  split
  next hn => simp [hn]
  next hn => exact iff_of_false nofun fun h => hn h.1

/-- The fields of a word that decodes to a command are those of the command. -/
theorem fields_of_decode {w : CmdWord} {i : Instr} (h : decode w = .command i) :
    opField w = i.opCode ∧ countField w = i.countBits := by
  obtain ⟨j, hj, hop, hd⟩ | ⟨hop, hd⟩ | ⟨hop, hd⟩ | ⟨-, hd⟩ := decode_cases w
  · obtain ⟨hn, rfl⟩ := withoutCount_eq_command.1 (hd.symm.trans h)
    exact ⟨hop, hn.trans hj.countBits.symm⟩
  · cases hd.symm.trans h; exact ⟨BitVec.eq_of_toNat_eq hop, rfl⟩
  · cases hd.symm.trans h; exact ⟨BitVec.eq_of_toNat_eq hop, rfl⟩
  · cases hd.symm.trans h

/-- Settles O3: the word and the encoding have the same two fields. -/
theorem encodeOfDecodeIsTheWord : Obligations.EncodeOfDecodeIsTheWord := by
  intro w i h
  obtain ⟨hop, hn⟩ := fields_of_decode h
  rw [encode, ← hop, ← hn, opField_append_countField]

/-! The classes of command words (R63). -/

theorem classify_of_command {w : CmdWord} {i : Instr} (h : decode w = .command i) :
    classify w = if i.wf then .legal else .countOutOfRange := by
  rw [classify, h]

theorem classify_of_illegal {w : CmdWord} {why : Illegal} (h : decode w = .illegal why) :
    classify w = .illegal why := by
  rw [classify, h]

theorem classify_of_withoutCount {w : CmdWord} {i : Instr} (hi : TakesNoCount i)
    (h : decode w = withoutCount i (countField w)) :
    classify w = if (countField w).toNat = 0 then .legal else .illegal .countNotZero := by
  by_cases hn : countField w = 0
  · rw [withoutCount, if_pos hn] at h
    simp [classify_of_command h, hi.wf, hn]
  · rw [withoutCount, if_neg hn] at h
    rw [classify_of_illegal h, if_neg (mt (BitVec.toNat_eq_nat (y := 0)).1 (by simpa using hn))]

/-- Settles O5: by the operation code and then by the count, each row a range of `op * 128 + n`. -/
theorem commandWordClasses : Obligations.CommandWordClasses := by
  intro w
  have hw := commandWord_toNat w
  have hlt := (countField w).isLt
  obtain ⟨i, hi, hop, hd⟩ | ⟨hop, hd⟩ | ⟨hop, hd⟩ | ⟨hop, hd⟩ := decode_cases w
  · have hcode := hi.opCode
    rw [classify_of_withoutCount hi hd]
    rw [hop] at hw
    split <;> simp only [reduceCtorEq, CmdClass.illegal.injEq, true_iff, false_iff] <;> omega
  · rw [classify_of_command hd]
    simp only [readUnsigned_wf_iff]
    split <;> simp only [reduceCtorEq, true_iff, false_iff] <;> omega
  · rw [classify_of_command hd]
    simp only [readSigned_wf_iff]
    split <;> simp only [reduceCtorEq, true_iff, false_iff] <;> omega
  · rw [classify_of_illegal hd]
    simp only [reduceCtorEq, CmdClass.illegal.injEq, true_iff, false_iff]
    omega

/-! The events of the interface in `IDLE` and `RESP` (R66, R67). -/

/-- Settles O31: the step is the acceptance, and the latched word runs. -/
theorem stepRunsTheDecodedCommand : Obligations.StepRunsTheDecodedCommand := by
  intro s e es i hin hr hv hp hreset hd
  have he := edge_of_cons hin
  rw [step_of_idle_offer (he ▸ hr) hp (he ▸ hv), acceptCommand, pastEdge_wasReset, if_pos hreset, he,
    pastEdge_of_cons hin]
  exact runCommand_command hd

/-- Settles O34: the two events of a core in `RESP`. -/
theorem responseIsHeldUntilDelivered : Obligations.ResponseIsHeldUntilDelivered := by
  intro s hp hr
  exact ⟨by simp [State.rspValid, hp], fun hv => step_of_resp_wait hr hp hv,
    fun hv => ⟨_, _, _, _, _, _, step_of_resp_ready hr hp hv⟩⟩

/-- Settles O35: the event of an `IDLE` core without an offer. -/
theorem idleCoreWaitsForACommand : Obligations.IdleCoreWaitsForACommand := by
  intro s hp hr hv
  exact ⟨by simp [State.cmdReady, hp], step_of_idle_quiet hr hp hv⟩

/-! Offers outside `IDLE` (R68): taking the offered commands off the edges commutes with everything that reads
the edges there, from the wait for an answer to the step. -/

/-- The same state with no command offered on its edges. -/
def dropOffers (s : State) : State := setInputs (withoutOffers s.inputs) s

@[simp] theorem dropOffers_rlen (s : State) : (dropOffers s).rlen = s.rlen := rfl
@[simp] theorem dropOffers_rem (s : State) : (dropOffers s).rem = s.rem := rfl

/-- The same answer, with no command offered on the edges after it. -/
def Awaited.dropOffers : Awaited → Awaited
  | .reply r rest => .reply r (withoutOffers rest)
  | .silent rest => .silent (withoutOffers rest)

/-- The same end of a part of a read, with no command offered on the edges left. -/
def Progress.dropOffers : Progress → Progress
  | .go s => .go (Machine.dropOffers s)
  | .failed s => .failed (Machine.dropOffers s)
  | .waiting s => .waiting (Machine.dropOffers s)

theorem awaitReply_withoutOffers (es : List PortIn) :
    awaitReply (withoutOffers es) = (awaitReply es).dropOffers := by
  induction es with
  | nil => rfl
  | cons e es ih =>
    rw [withoutOffers, List.map_cons, ← withoutOffers, awaitReply, awaitReply, ih]
    by_cases hr : e.rst = true
    · simp [hr, Awaited.dropOffers, withoutOffers]
    · by_cases ha : e.srcAck = true
      · simp [hr, ha, Awaited.dropOffers, PortIn.srcReply]
      · simp [hr, ha]

theorem srcFetch_dropOffers (s : State) : srcFetch (dropOffers s) = (srcFetch s).dropOffers := by
  have h : awaitReply (dropOffers s).inputs = (awaitReply s.inputs).dropOffers := awaitReply_withoutOffers _
  rw [srcFetch, srcFetch, h]
  cases awaitReply s.inputs with
  | silent rest => rfl
  | reply r rest => cases r <;> rfl

theorem refill_dropOffers (s : State) : refill (dropOffers s) = (refill s).dropOffers := by
  rw [refill, refill, dropOffers_rlen]
  split
  · exact srcFetch_dropOffers s
  · rfl

/-- An iteration reads no edge but in its fetch. -/
theorem takeChunk_dropOffers (s : State) : takeChunk (dropOffers s) = dropOffers (takeChunk s) := rfl

theorem readLoop_dropOffers (f : Nat) (s : State) :
    readLoop f (dropOffers s) = (readLoop f s).dropOffers := by
  induction f generalizing s with
  | zero => rfl
  | succ f ih =>
    rw [readLoop, readLoop, dropOffers_rem, refill_dropOffers]
    split
    · rfl
    · cases refill s with
      | go t => exact (congrArg (readLoop f) (takeChunk_dropOffers t)).trans (ih _)
      | failed | waiting => rfl

theorem continueRead_dropOffers (result : Word → Word) (s : State) :
    continueRead result (dropOffers s) = dropOffers (continueRead result s) := by
  show endRead result (readLoop s.rem.toNat (dropOffers s)) = _
  rw [readLoop_dropOffers, continueRead]
  cases readLoop s.rem.toNat s <;> rfl

theorem resumeCommand_dropOffers (s : State) :
    resumeCommand (dropOffers s) = mapNext dropOffers (resumeCommand s) := by
  cases hd : decode s.cmdWord with
  | illegal why => rw [resumeCommand_illegal hd, resumeCommand_illegal (s := dropOffers s) hd]; rfl
  | command i =>
    cases hc : i.readCount with
    | some n =>
      rw [resumeCommand_read hd hc, resumeCommand_read (s := dropOffers s) hd hc, continueRead_dropOffers]; rfl
    | none =>
      rw [resumeCommand_direct hd hc, resumeCommand_direct (s := dropOffers s) hd hc]
      cases i with
      | atEnd | align | clz => rfl
      | readUnsigned | readByte | readSigned => cases hc

/-- The next edge is the same, but for the offer. -/
theorem edge_dropOffers (s : State) :
    (dropOffers s).edge = { s.edge with cmdValid := false, cmdWord := 0, cmdOperand := 0 } := by
  simp only [State.edge, dropOffers, setInputs_inputs, withoutOffers]
  cases s.inputs <;> rfl

@[simp] theorem dropOffers_edge_rst (s : State) : (dropOffers s).edge.rst = s.edge.rst := by rw [edge_dropOffers]
@[simp] theorem dropOffers_edge_rspReady (s : State) : (dropOffers s).edge.rspReady = s.edge.rspReady := by
  rw [edge_dropOffers]

theorem pastEdge_dropOffers (s : State) : pastEdge (dropOffers s) = dropOffers (pastEdge s) := by
  simp [pastEdge, dropOffers, setInputs, withoutOffers]

/-- Event by event of the interface. -/
theorem step_dropOffers {s : State} (h : s.phase ≠ .idle) :
    step (dropOffers s) = mapNext dropOffers (step s) := by
  have hrst := dropOffers_edge_rst s
  have hready := dropOffers_edge_rspReady s
  obtain ⟨hr, hs⟩ | ⟨-, hp, -⟩ | ⟨-, hp, -⟩ | ⟨hr, hp, hs⟩ | ⟨hr, hp, hv, hs⟩ | ⟨hr, hp, hv, hs⟩ := step_cases s
  · rw [hs, step_of_rst (hrst.trans hr), edge_dropOffers, pastEdge_dropOffers]; rfl
  · exact absurd hp h
  · exact absurd hp h
  · rw [hs, step_of_busy (hrst.trans hr) hp, resumeCommand_dropOffers]
  · rw [hs, step_of_resp_ready (hrst.trans hr) hp (hready.trans hv), pastEdge_dropOffers]; rfl
  · rw [hs, step_of_resp_wait (hrst.trans hr) hp (hready.trans hv), pastEdge_dropOffers]; rfl

/-- Settles O38: outside `IDLE` the step commutes with taking the offers off the edges. -/
theorem commandsOfferedWhileNotReadyChangeNothing : Obligations.CommandsOfferedWhileNotReadyChangeNothing := by
  intro s t hp h
  exact (step_dropOffers hp).trans (congrArg (mapNext dropOffers) h)

end Sys2Proof.Machine

/-! PROOFS. `AT_END` (40_at_end.md R80), and the illegal words of the commands that take no count
(30_encoding.md R62, R63). -/

namespace Sys2Proof.Machine

@[simp] theorem opField_append (op : OpCode) (n : Count) : opField (op ++ n) = op :=
  BitVec.extractLsb'_append_eq_left

@[simp] theorem countField_append (op : OpCode) (n : Count) : countField (op ++ n) = n :=
  BitVec.extractLsb'_append_eq_right

/-- The opcode of a command that takes no count, under any count field. -/
theorem decode_opCode_append {i : Instr} (hi : TakesNoCount i) (n : Count) :
    decode (i.opCode ++ n) = withoutCount i n := by
  rw [decode, opField_append, countField_append]
  obtain rfl | rfl | rfl | rfl := hi <;> rfl

theorem decode_of_count_ne_zero {i : Instr} (hi : TakesNoCount i) {n : Count} (hn : n ≠ 0) :
    decode (i.opCode ++ n) = .illegal .countNotZero := by
  rw [decode_opCode_append hi, withoutCount, if_neg hn]

/-- The truth table of R80, in the spelling of R24: `EMPTY` and exhausted. -/
theorem atEndResult_eq (s : State) :
    atEndResult s.rlen s.srcExhausted = if s.rlen.toNat = 0 ∧ s.srcExhausted = true then 1 else 0 := by
  simp only [atEndResult, rlen_eq_zero_iff]

/-- Settles O6: the response is the only update, and the opcode of `AT_END` takes no count. -/
theorem atEndAnswersWhetherEmptyAndExhausted : Obligations.AtEndAnswersWhetherEmptyAndExhausted := by
  refine ⟨fun s => ?_, rfl, fun n hn => decode_of_count_ne_zero (i := .atEnd) (.inl rfl) hn⟩
  rw [exec_atEnd, atEndResult_eq, respond]

end Sys2Proof.Machine

/-! PROOFS. `READ_UNSIGNED` and `READ_BYTE` (41_read_unsigned.md): the closed form (R94) and the fetches (R95), how
many iterations the loop needs (R92), the failing fetch (R98), and the laws of R91, R96 and R97. -/

namespace Sys2Proof.Machine

/-! The closed form (R94), the zero count (R96) and the failing fetch (R98). -/

/-- Settles O11: the closed form of the reads, with `ACC` as the result. -/
theorem readUnsignedClosedForm : Obligations.ReadUnsignedClosedForm := by
  intro s n bs rest hinv hn hs
  obtain ⟨rb, acc, he, ha, hb, hb0⟩ := exec_read_supplied hinv ((readUnsigned_wf_iff n).2 hn) rfl hs
  refine ⟨rb, acc, 0, ?_, readValue_lt n.toNat (suppliedBytes_length hs), readLeftover_le_seven hinv.1, hb, hb0⟩
  rw [he, ← ha, BitVec.ofNat_toNat, BitVec.setWidth_eq]
  rfl

/-- Settles O12: with no bit demanded the loop does not begin. -/
theorem readOfZeroBitsTouchesNothing : Obligations.ReadOfZeroBitsTouchesNothing := by
  intro s
  refine ⟨0, 0, ?_⟩
  rw [exec_read (n := 0) rfl rfl, readBody, readLoop_done _ rfl]
  rfl

/-- Settles O20: the read comes to stand before the failing fetch with an empty residue. -/
theorem failedFetchEndsTheRead : Obligations.FailedFetchEndsTheRead := by
  intro i n s j bs rest rest' hinv hc hw hj hs hf
  obtain ⟨rb, acc, rm, he⟩ := exec_read_failed hinv hw hc hj hs hf
  exact ⟨rb, acc, rm, _, _, rfl, he, Int.sub_zero _⟩

/-! How many fetches a read makes (R95). -/

theorem readFetches_of_le {r n : Nat} (h : n ≤ r) : readFetches r n = 0 := by
  rw [readFetches, Nat.sub_eq_zero_of_le h]; rfl

/-- Settles O13: a read that ends with `OK` was supplied with exactly the bytes of its closed form. -/
theorem readUnsignedFetchCount : Obligations.ReadUnsignedFetchCount := by
  intro s t n hinv h hp hok
  have hw := wf_of_exec_ok h hok
  obtain ⟨bs, rest, hs⟩ := suppliedBytes_of_exec_ok hinv hw rfl h hp hok
  obtain ⟨rb, acc, he, -⟩ := exec_read_supplied hinv hw rfl hs
  rw [h] at he
  cases he
  have hlen := suppliedBytes_length hs
  have hcount : (s.stream ++ bs).length = s.nfetch + readFetches s.rlen.toNat n.toNat := by
    rw [List.length_append, hlen]; rfl
  refine ⟨fun hle => ?_, fun _ => hcount, ?_, bs, rfl, hlen ▸ hs⟩
  · rw [readFetches_of_le hle] at hs hcount
    cases hs
    exact ⟨hcount, rfl⟩
  · exact hcount.trans_le (Nat.add_le_add_left (readFetches_le_eight _ ((readUnsigned_wf_iff n).1 hw)) _)

/-! Step (a) of R90, and the bits in `ACC` in every state, of the boundary or not. -/

/-- Where a refill goes through, there was a residue, or the source has handed over a byte. -/
theorem refill_go {s t : State} (h : refill s = .go t) :
    (1 ≤ s.rlen.toNat ∧ t = s) ∨ (s.rlen.toNat = 0 ∧ ∃ b es, t = takeByte b es s) := by
  rw [refill] at h
  split at h
  case isFalse hr =>
    cases h
    rw [rlen_eq_zero_iff] at hr
    exact .inl ⟨by omega, rfl⟩
  case isTrue hr =>
    refine .inr ⟨(rlen_eq_zero_iff s).1 hr, ?_⟩
    rw [srcFetch] at h
    split at h
    · cases h; exact ⟨_, _, rfl⟩
    · cases h
    · cases h

theorem refill_go_acc_rem {s t : State} (h : refill s = .go t) : t.acc = s.acc ∧ t.rem = s.rem := by
  obtain ⟨-, rfl⟩ | ⟨-, b, es, rfl⟩ := refill_go h
  · exact ⟨rfl, rfl⟩
  · exact ⟨rfl, rfl⟩

/-- The mask keeps `k` bits, or all 8 of them. -/
theorem topChunk_lt (b : Byte) (r k : Nat) : (topChunk b r k).toNat < 2 ^ k := by
  obtain hk | hk := Nat.lt_or_ge 8 k
  · exact (topChunk b r k).isLt.trans (Nat.pow_lt_pow_right (by decide) hk)
  · rw [topChunk_toNat b hk]; exact Nat.mod_lt _ (Nat.two_pow_pos k)

/-- One iteration of a read of `n` bits keeps `ACC` within the bits taken so far, whatever the residue holds. -/
theorem takeChunk_acc_fits {n : Nat} {s : State} (hm : s.rem.toNat ≤ n) (ha : s.acc.toNat < 2 ^ (n - s.rem.toNat)) :
    (takeChunk s).acc.toNat < 2 ^ (n - (takeChunk s).rem.toNat) := by
  have hk := chunkSize_le_rem s
  have hchunk : ((topChunk s.rbyte s.rlen.toNat (chunkSize s)).setWidth 64).toNat < 2 ^ chunkSize s := by
    rw [BitVec.toNat_setWidth]
    exact (Nat.mod_le ..).trans_lt (topChunk_lt ..)
  have hshift : (s.acc <<< chunkSize s).toNat < 2 ^ (n - s.rem.toNat + chunkSize s) := by
    rw [BitVec.toNat_shiftLeft, Nat.shiftLeft_eq, Nat.pow_add]
    exact (Nat.mod_le ..).trans_lt (Nat.mul_lt_mul_of_pos_right ha (Nat.two_pow_pos _))
  rw [takeChunk_rem_toNat, show n - (s.rem.toNat - chunkSize s) = n - s.rem.toNat + chunkSize s by omega, takeChunk,
    takeBits_acc, BitVec.toNat_or]
  exact Nat.or_lt_two_pow hshift (hchunk.trans_le (Nat.pow_le_pow_right (by decide) (Nat.le_add_left ..)))

theorem readLoop_acc_fits {n : Nat} : ∀ (f : Nat) {s t : State}, s.rem.toNat ≤ n →
    s.acc.toNat < 2 ^ (n - s.rem.toNat) → readLoop f s = .go t → t.acc.toNat < 2 ^ n := by
  have hall {s : State} (ha : s.acc.toNat < 2 ^ (n - s.rem.toNat)) : s.acc.toNat < 2 ^ n :=
    ha.trans_le (Nat.pow_le_pow_right (by decide) (Nat.sub_le ..))
  intro f
  induction f with
  | zero => intro s t hm ha h; cases h; exact hall ha
  | succ f ih =>
    intro s t hm ha h
    rw [readLoop] at h
    split at h
    · cases h; exact hall ha
    · cases hgo : refill s with
      | failed u | waiting u => rw [hgo] at h; cases h
      | go u =>
        rw [hgo] at h
        obtain ⟨hacc, hrem⟩ := refill_go_acc_rem hgo
        rw [← hrem] at hm ha
        rw [← hacc] at ha
        exact ih ((takeChunk_rem_toNat u).trans_le ((Nat.sub_le ..).trans hm)) (takeChunk_acc_fits hm ha) h

/-! `READ_BYTE` (R91). -/

/-- Settles O14: the two reads run one loop, and its `ACC` has no bit above bit 7. -/
theorem readByteIsReadUnsignedEight : Obligations.ReadByteIsReadUnsignedEight := by
  intro s
  rw [exec_read (i := .readByte) (n := 8) rfl rfl, exec_read (i := .readUnsigned 8) (n := 8) rfl rfl, readBody,
    readBody]
  cases hl : readLoop (8 : Count).toNat (beginRead 8 s) with
  | failed t | waiting t => rfl
  | go t =>
    have ha : t.acc.toNat < 2 ^ 8 := 
      readLoop_acc_fits (s := beginRead 8 s) _ (Nat.le_refl 8) (Nat.two_pow_pos _) hl
    have hbyte : byteResult t.acc = unsignedResult t.acc := BitVec.eq_of_toNat_eq (byteResult_toNat ha)
    exact congrArg (fun v => Host.Outcome.next (respond v t)) hbyte

theorem readFetches_eight {r : Nat} (hr : r ≤ 7) : readFetches r 8 = 1 := by
  simp only [readFetches, fetchesFor]; omega

theorem readLeftover_eight {r : Nat} (hr : r ≤ 7) : readLeftover r 8 = r := by
  simp only [readLeftover, readFetches_eight hr]; omega

theorem suppliedBytes_one {es rest : List PortIn} {b : Byte} (h : awaitReply es = .reply (.byte b) rest) :
    suppliedBytes 1 es = some ([b], rest) := by
  simp [suppliedBytes, h]

/-- The string `T` of R94 for one byte. -/
theorem readSpan_one (s : State) (b : Byte) : readSpan s [b] = s.residue * 2 ^ 8 + b.toNat := rfl

/-- Settles O15: the closed form of R94 for 8 bits, which take one byte and leave as many bits as there were. -/
theorem readByteSpansTheByteBoundary : Obligations.ReadByteSpansTheByteBoundary := by
  intro s b rest hinv he
  have h7 := hinv.1
  have hF := readFetches_eight h7
  have hL := readLeftover_eight h7
  obtain ⟨rb, acc, hex, ha, hb, -⟩ := exec_read_supplied (i := .readByte) (n := 8) hinv rfl rfl
    (show suppliedBytes (readFetches s.rlen.toNat 8) s.inputs = _ from hF ▸ suppliedBytes_one he)
  have hT : readSpan s [b] = s.residue * 2 ^ (8 - s.rlen.toNat + s.rlen.toNat) + b.toNat := by
    rw [Nat.sub_add_cancel (by omega), readSpan_one]
  have hv := readValue_lt (s := s) (bs := [b]) 8 hF.symm
  have hd : (byteResult acc).toNat = readValue s 8 [b] := (byteResult_toNat (ha ▸ hv)).trans ha
  refine ⟨rb, acc, 0, byteResult acc, ?_, ?_, ?_⟩
  · rw [hex, show (8 : Count).toNat = 8 from rfl, hL, BitVec.ofNat_toNat, BitVec.setWidth_eq]
    rfl
  · rw [hd, readValue, hL, hT, split_div]
  · rw [hb (by decide), show (8 : Count).toNat = 8 from rfl, readResidue, hL, hT, split_mod]

/-! How many iterations the loop needs (R92). -/

/-- The iterations of the loop from `s`: one for each fetch, and one for a residue that is there before them. -/
def iterations (s : State) : Nat := readFetches s.rlen.toNat s.rem.toNat + min 1 (chunkSize s)

theorem iterations_le_nine {s : State} (hm : s.rem.toNat ≤ 64) : iterations s ≤ 9 := by
  have := readFetches_le_eight s.rlen.toNat hm
  rw [iterations]
  omega

/-- Every iteration takes a bit (R92). -/
theorem iterations_le_rem (s : State) : iterations s ≤ s.rem.toNat := by
  simp only [iterations, readFetches, fetchesFor, chunkSize]
  omega

/-- While bits are demanded, at least one iteration is to come. -/
theorem iterations_pos {s : State} (hm : 1 ≤ s.rem.toNat) : 1 ≤ iterations s := by
  simp only [iterations, readFetches, fetchesFor, chunkSize]
  omega

/-- A refill leaves the count: the byte it brings stands for the fetch that is no more to come. -/
theorem iterations_refill {s t : State} (hm : 1 ≤ s.rem.toNat) (h : refill s = .go t) :
    iterations t = iterations s ∧ t.rem = s.rem ∧ 1 ≤ t.rlen.toNat := by
  obtain ⟨hr, rfl⟩ | ⟨hr, b, es, rfl⟩ := refill_go h
  · exact ⟨rfl, rfl, hr⟩
  · refine ⟨?_, rfl, (by decide : 1 ≤ 8)⟩
    have hbyte := readFetches_byte hm
    have hone : min 1 (chunkSize (takeByte b es s)) = 1 := Nat.min_eq_left (chunkSize_pos hm (by decide : 1 ≤ 8))
    have hnone : chunkSize s = 0 := by rw [chunkSize, hr, Nat.zero_min]
    rw [iterations, iterations, hone, hnone, hr, hbyte]
    rfl

/-- An iteration empties the residue or satisfies the demand. -/
theorem iterations_takeChunk {s : State} (hm : 1 ≤ s.rem.toNat) (hr : 1 ≤ s.rlen.toNat) :
    iterations s = iterations (takeChunk s) + 1 := by
  have hend : chunkSize (takeChunk s) = 0 := by
    rw [chunkSize, takeChunk_rlen_toNat, takeChunk_rem_toNat, chunkSize]; omega
  have hk := chunkSize_pos hm hr
  rw [iterations, iterations, hend, takeChunk_rlen_toNat, takeChunk_rem_toNat, readFetches_chunk (chunkSize_le_rlen s)]
  omega

/-- The bound on the iterations does not matter once it reaches their number. -/
theorem readLoop_of_iterations_le {f g : Nat} {s : State} (hf : iterations s ≤ f) (hg : iterations s ≤ g) :
    readLoop f s = readLoop g s := by
  induction f generalizing g s with
  | zero =>
    obtain hm | hm := Nat.eq_zero_or_pos s.rem.toNat
    · rw [readLoop_done _ hm, readLoop_done _ hm]
    · have := iterations_pos hm; omega
  | succ f ih =>
    obtain hm | hm := Nat.eq_zero_or_pos s.rem.toNat
    · rw [readLoop_done _ hm, readLoop_done _ hm]
    obtain ⟨g, rfl⟩ : ∃ g', g = g' + 1 := ⟨g - 1, by have := iterations_pos hm; omega⟩
    rw [readLoop, readLoop]
    cases hgo : refill s with
    | failed t | waiting t => rfl
    | go t =>
      obtain ⟨hit, hrem, hr⟩ := iterations_refill hm hgo
      have hstep := iterations_takeChunk (hrem ▸ hm) hr
      have hnext : readLoop f (takeChunk t) = readLoop g (takeChunk t) := ih (by omega) (by omega)
      simp only [hnext]

/-- From an empty residue every iteration takes a byte, until the demand is satisfied. -/
theorem readLoop_takes_bytes {f k : Nat} {s : State} {p : List Byte × List PortIn} (hr : s.rlen.toNat = 0)
    (hk : f ≤ k) (hs : suppliedBytes k s.inputs = some p) :
    ∃ t, readLoop f s = .go t ∧ t.rem.toNat = s.rem.toNat - 8 * f := by
  induction f generalizing k s p with
  | zero => exact ⟨s, rfl, rfl⟩
  | succ f ih =>
    obtain hm | hm := Nat.eq_zero_or_pos s.rem.toNat
    · exact ⟨s, readLoop_done _ hm, by omega⟩
    obtain ⟨k, rfl⟩ : ∃ k', k = k' + 1 := ⟨k - 1, by omega⟩
    obtain ⟨b, bs, es, he, hs', -⟩ := suppliedBytes_succ (bs := p.1) (rest := p.2) hs
    rw [readLoop_byte f hm hr he]
    have hlen := takeChunk_rlen_toNat (takeByte b es s)
    have hrem := takeChunk_rem_toNat (takeByte b es s)
    have hsize : chunkSize (takeByte b es s) = min 8 s.rem.toNat := rfl
    rw [takeByte_rlen, hsize] at hlen
    rw [takeByte_rem, hsize] at hrem
    obtain h8 | h8 := Nat.lt_or_ge s.rem.toNat 8
    · exact ⟨_, readLoop_done f (by omega), by omega⟩
    · obtain ⟨t, ht, hm'⟩ := ih (s := takeChunk (takeByte b es s)) (hlen.trans (by simp [h8]))
        (Nat.le_of_succ_le_succ hk) hs'
      exact ⟨t, ht, by omega⟩

/-- A residue of less than the demand is the first iteration's work; then the bytes. -/
theorem readLoop_takes_residue_and_bytes {f k : Nat} {s : State} {p : List Byte × List PortIn}
    (hr : 1 ≤ s.rlen.toNat) (hm : s.rlen.toNat < s.rem.toNat) (hk : f ≤ k) (hs : suppliedBytes k s.inputs = some p) :
    ∃ t, readLoop (f + 1) s = .go t ∧ t.rem.toNat = s.rem.toNat - s.rlen.toNat - 8 * f := by
  have hsize : chunkSize s = s.rlen.toNat := Nat.min_eq_left (Nat.le_of_lt hm)
  have hlen := takeChunk_rlen_toNat s
  have hrem := takeChunk_rem_toNat s
  rw [hsize] at hlen hrem
  rw [readLoop_residue f (by omega) hr, ← hrem]
  exact readLoop_takes_bytes (hlen.trans (Nat.sub_self _)) hk hs

/-- Settles O23: the loop ends after `iterations`, at most 9 of them; 64 bits from a residue need a residue and 8
bytes. -/
theorem nineIterationsSuffice : Obligations.NineIterationsSuffice := by
  refine ⟨fun s hr h8 hm => ?_, fun s f _ hm hf => ?_, fun s p hinv hr hm hs => ?_⟩
  · exact ⟨chunkSize_pos hm hr, (chunkSize_le_rlen s).trans h8, takeChunk_rem_toNat s⟩
  · have h9 := iterations_le_nine hm
    exact readLoop_of_iterations_le (hf.elim h9.trans (iterations_le_rem s).trans) h9
  · have h7 := hinv.1
    obtain ⟨t, ht, htm⟩ := readLoop_takes_residue_and_bytes (f := 8) hr (by omega) (Nat.le_refl 8) hs
    obtain ⟨u, hu, hum⟩ := readLoop_takes_residue_and_bytes (f := 7) hr (by omega) (by decide : 7 ≤ 8) hs
    exact ⟨⟨t, ht, by omega⟩, ⟨u, hu, by omega⟩⟩

/-! Reads in a row (R97). -/

/-- What the next read needs to know of a `READ_UNSIGNED n` that completed from `s` in `t`. -/
structure ReadCompleted (s : State) (n : Nat) (bs : List Byte) (rest : List PortIn) (t : State) : Prop where
  phase : t.phase = .resp
  status : t.rspStatus = .ok
  data : t.rspData.toNat = readValue s n bs
  rlen : t.rlen.toNat = readLeftover s.rlen.toNat n
  residue : t.residue = readResidue s n bs
  inv : ResidueInv t
  stream : t.stream = s.stream ++ bs
  inputs : t.inputs = rest

theorem readUnsigned_completes {s : State} {n : Count} {bs : List Byte} {rest : List PortIn} (hinv : ResidueInv s)
    (hn : n.toNat ≤ 64) (hs : suppliedBytes (readFetches s.rlen.toNat n.toNat) s.inputs = some (bs, rest)) :
    ∃ t, exec (.readUnsigned n) s = .next t ∧ ReadCompleted s n.toNat bs rest t := by
  obtain ⟨rb, acc, he, ha, hb, hb0⟩ := exec_read_supplied hinv ((readUnsigned_wf_iff n).2 hn) rfl hs
  have hrlen := readLeftover_toNat n.toNat hinv.1
  have hlt : readResidue s n.toNat bs < 2 ^ readLeftover s.rlen.toNat n.toNat := Nat.mod_lt _ (Nat.two_pow_pos _)
  have hres : rb.toNat % 2 ^ readLeftover s.rlen.toNat n.toNat = readResidue s n.toNat bs ∧
      (1 ≤ readLeftover s.rlen.toNat n.toNat → rb.toNat < 2 ^ readLeftover s.rlen.toNat n.toNat) := by
    by_cases h0 : n.toNat = 0
    · have hF := readFetches_of_le (Nat.zero_le s.rlen.toNat)
      have hL : readLeftover s.rlen.toNat 0 = s.rlen.toNat := by rw [readLeftover, hF]; rfl
      rw [h0, hF] at hs
      cases hs
      rw [hb0 h0, h0, readResidue, hL]
      exact ⟨(Nat.mod_mod _ _).symm, hinv.2⟩
    · rw [hb h0, Nat.mod_eq_of_lt hlt]
      exact ⟨rfl, fun _ => hlt⟩
  refine ⟨_, he, rfl, rfl, ha, hrlen, ?_, ⟨?_, ?_⟩, rfl, rfl⟩
  · exact (congrArg (rb.toNat % 2 ^ ·) hrlen).trans hres.1
  · exact hrlen.trans_le (readLeftover_le_seven hinv.1)
  · show 1 ≤ (BitVec.ofNat 4 _).toNat → rb.toNat < 2 ^ (BitVec.ofNat 4 _).toNat
    rw [hrlen]
    exact hres.2

/-- A row of fetches cut in two. -/
theorem suppliedBytes_add {j k : Nat} {es rest : List PortIn} {bs : List Byte}
    (h : suppliedBytes (j + k) es = some (bs, rest)) :
    ∃ bs₁ bs₂ mid, suppliedBytes j es = some (bs₁, mid) ∧ suppliedBytes k mid = some (bs₂, rest) ∧
      bs = bs₁ ++ bs₂ := by
  induction j generalizing es bs with
  | zero => exact ⟨[], bs, es, rfl, Nat.zero_add k ▸ h, rfl⟩
  | succ j ih =>
    rw [Nat.add_right_comm] at h
    obtain ⟨b, bs', es', he, hs, rfl⟩ := suppliedBytes_succ h
    obtain ⟨bs₁, bs₂, mid, h₁, h₂, rfl⟩ := ih hs
    exact ⟨b :: bs₁, bs₂, mid, by simp [suppliedBytes, he, h₁], h₂, rfl⟩

/-- Two reads that leave no residue: their values are the digits of the whole string `T`. -/
theorem readValues_in_a_row {s t : State} {n m : Nat} {bs₁ bs₂ : List Byte} {mid : List PortIn}
    (ht : ReadCompleted s n bs₁ mid t) (hm : m = t.rlen.toNat + 8 * bs₂.length)
    (hL : readLeftover t.rlen.toNat m = 0) :
    readValue s n bs₁ * 2 ^ m + readValue t m bs₂ = readSpan s (bs₁ ++ bs₂) := by
  have hT : readSpan s bs₁ = readValue s n bs₁ * 2 ^ t.rlen.toNat + t.residue := by
    rw [ht.residue, ht.rlen]; exact (Nat.div_add_mod' _ _).symm
  have hlast : readValue t m bs₂ = t.residue * 2 ^ (8 * bs₂.length) + spanValue 0 bs₂ := by
    rw [readValue, hL, Nat.pow_zero, Nat.div_one, readSpan, spanValue_eq_add]
  calc readValue s n bs₁ * 2 ^ m + readValue t m bs₂
      = readSpan s bs₁ * 2 ^ (8 * bs₂.length) + spanValue 0 bs₂ := by
        rw [hlast, hT, hm, Nat.pow_add]; ring
    _ = readSpan s (bs₁ ++ bs₂) := by
        rw [readSpan, readSpan, spanValue_append, ← spanValue_eq_add]

/-- Settles O25: the second read takes the first one's residue and the remaining bytes, and leaves no bit. -/
theorem twoReadsReconstructTheBytes : Obligations.TwoReadsReconstructTheBytes := by
  intro s n m bs rest hr hn hm h8 hs
  have hfetches : (n.toNat + m.toNat) / 8 =
      readFetches 0 n.toNat + readFetches (readLeftover 0 n.toNat) m.toNat := by
    simp only [readLeftover, readFetches, fetchesFor]; omega
  have hleft : readLeftover (readLeftover 0 n.toNat) m.toNat = 0 := by
    simp only [readLeftover, readFetches, fetchesFor]; omega
  rw [hfetches] at hs
  obtain ⟨bs₁, bs₂, mid, h₁, h₂, rfl⟩ := suppliedBytes_add hs
  obtain ⟨t, het, ht⟩ := readUnsigned_completes (.of_empty hr) hn (hr ▸ h₁)
  have htr : t.rlen.toNat = readLeftover 0 n.toNat := hr ▸ ht.rlen
  obtain ⟨u, heu, hu⟩ := readUnsigned_completes (n := m) ht.inv hm (by rw [htr, ht.inputs]; exact h₂)
  have hcover : m.toNat = t.rlen.toNat + 8 * bs₂.length := by
    have hsum := readLeftover_add (readLeftover 0 n.toNat) m.toNat
    rw [htr, suppliedBytes_length h₂]
    omega
  refine ⟨t, u, het, ht.phase, ht.status, heu, hu.phase, hu.status, ?_, ?_, ?_, hu.inputs⟩
  · rw [ht.data, hu.data, readValues_in_a_row ht hcover (htr ▸ hleft), readSpan, residue_empty hr]
  · rw [hu.rlen, htr, hleft]
  · rw [hu.stream, ht.stream, List.append_assoc]

/-! Single bits (R97 (i)). -/

/-- The result of a read of one bit. -/
def bitWord (x : Bool) : Word := if x then 1 else 0

/-- The low `r` bits of a byte in the order of delivery. -/
def lowBits (b : Byte) : Nat → List Bool
  | 0 => []
  | r + 1 => b.getLsbD r :: lowBits b r

theorem byteBits_eq_lowBits (b : Byte) : byteBits b = lowBits b 8 := rfl

/-- The top one of the low `r + 1` bits. -/
theorem mod_div_eq_bit (b : Byte) (r : Nat) : b.toNat % 2 ^ (r + 1) / 2 ^ r = (bitWord (b.getLsbD r)).toNat := by
  rw [Nat.pow_succ, Nat.mod_mul_right_div_self, BitVec.getLsbD, Nat.testBit_eq_decide_div_mod_eq, bitWord]
  obtain h | h := Nat.mod_two_eq_zero_or_one (b.toNat / 2 ^ r) <;> simp [h]

/-- A read of one bit where the low `r + 1` bits of `b` are next delivers the top one of them. -/
theorem singleBitReads_succ {s : State} {b : Byte} {r : Nat} {bs : List Byte} {rest : List PortIn} (k : Nat)
    (hinv : ResidueInv s) (hs : suppliedBytes (readFetches s.rlen.toNat 1) s.inputs = some (bs, rest))
    (hL : readLeftover s.rlen.toNat 1 = r) (hT : readSpan s bs = b.toNat % 2 ^ (r + 1)) :
    ∃ t, singleBitReads (k + 1) s = (bitWord (b.getLsbD r) :: (singleBitReads k t).1, (singleBitReads k t).2) ∧
      ResidueInv t ∧ t.rlen.toNat = r ∧ t.residue = b.toNat % 2 ^ r ∧ t.stream = s.stream ++ bs ∧
      t.inputs = rest := by
  obtain ⟨t, he, ht⟩ := readUnsigned_completes (n := 1) hinv (by decide) hs
  have hdata : t.rspData = bitWord (b.getLsbD r) := by
    apply BitVec.eq_of_toNat_eq
    rw [ht.data, ← mod_div_eq_bit, ← hT, ← hL]
    rfl
  have hres : t.residue = b.toNat % 2 ^ r := by
    rw [ht.residue, ← Nat.mod_mod_of_dvd b.toNat (Nat.pow_dvd_pow 2 (Nat.le_succ r)), ← hT, ← hL]
    rfl
  exact ⟨t, by rw [singleBitReads, he, ← hdata], ht.inv, ht.rlen.trans hL, hres, ht.stream, ht.inputs⟩

/-- Single-bit reads of a residue deliver its bits and touch nothing. -/
theorem singleBitReads_residue {b : Byte} {r : Nat} {s : State} (hinv : ResidueInv s) (hr : s.rlen.toNat = r)
    (hb : s.residue = b.toNat % 2 ^ r) :
    (singleBitReads r s).1 = (lowBits b r).map bitWord ∧ (singleBitReads r s).2.stream = s.stream ∧
      (singleBitReads r s).2.inputs = s.inputs := by
  induction r generalizing s with
  | zero => exact ⟨rfl, rfl, rfl⟩
  | succ r ih =>
    have hF : readFetches s.rlen.toNat 1 = 0 := readFetches_of_le (by omega)
    have hL : readLeftover s.rlen.toNat 1 = r := by rw [readLeftover, hF, hr]; rfl
    obtain ⟨t, he, hti, htr, htb, hst, hin⟩ := singleBitReads_succ (bs := []) r hinv (by rw [hF]; rfl) hL hb
    obtain ⟨hbits, hst', hin'⟩ := ih hti htr htb
    rw [he, hbits, hst', hin', hst, hin, List.append_nil]
    exact ⟨rfl, rfl, rfl⟩

/-- Settles O26: the first read fetches the byte and delivers its top bit, the others its residue. -/
theorem eightSingleBitsAreOneByte : Obligations.EightSingleBitsAreOneByte := by
  intro s b rest hr he
  have hinv : ResidueInv s := .of_empty hr
  have hres := residue_empty hr
  have hT : readSpan s [b] = b.toNat % 2 ^ 8 := by
    rw [readSpan_one, hres, Nat.zero_mul, Nat.zero_add, Nat.mod_eq_of_lt b.isLt]
  obtain ⟨t, hex, hti, htr, htb, hst, hin⟩ := singleBitReads_succ 7 hinv
    (show _ = some ([b], rest) by rw [hr]; exact suppliedBytes_one he) (by rw [hr]; rfl) hT
  obtain ⟨hbits, hst', hin'⟩ := singleBitReads_residue hti htr htb
  obtain ⟨rb, ac, rm, d, hrb, hd, -⟩ := readByteSpansTheByteBoundary s b rest hinv he
  refine ⟨?_, ?_, ?_, bitsValue_byteBits b, _, hrb, rfl, ?_⟩
  · rw [hex, hbits, byteBits_eq_lowBits]; rfl
  · rw [hex, hst', hst]
  · rw [hex, hin', hin]
  · rw [show _ = d.toNat from rfl, hd, hres, hr, Nat.zero_mul, Nat.zero_add, Nat.pow_zero, Nat.div_one]

end Sys2Proof.Machine

/-! PROOFS. `READ_SIGNED` (42_read_signed.md): the shifts through the 32-bit frame as the multiplexer of R111, the
closed form of R110, and the comparison with `READ_UNSIGNED`. -/

namespace Sys2Proof.Machine

/-! The sign extension (R111). -/

/-- The left shift brings bit `n - 1` to the top of the frame. -/
theorem frame_msb {n : Count} (acc : Word) (hn : 1 ≤ n.toNat) (hn' : n.toNat ≤ 32) :
    (acc.setWidth 32 <<< (Config.SFRAME_W - n.toNat)).msb = acc.getLsbD (n.toNat - 1) := by
  have hd : 31 - (Config.SFRAME_W - n.toNat) = n.toNat - 1 := by simp only [Config.SFRAME_W]; omega
  have hlow : ¬ 31 < Config.SFRAME_W - n.toNat := by simp only [Config.SFRAME_W]; omega
  simp [BitVec.msb_eq_getLsbD_last, hd, hlow]

/-- The multiplexer of R111, whatever stands in `ACC` above bit `n - 1`. -/
theorem signedResult_getLsbD {n : Count} (acc : Word) (hn : 1 ≤ n.toNat) (hn' : n.toNat ≤ 32) {i : Nat}
    (hi : i < 64) :
    (signedResult n acc).getLsbD i = if i < n.toNat then acc.getLsbD i else acc.getLsbD (n.toNat - 1) := by
  rw [signedResult, BitVec.getLsbD_signExtend, BitVec.msb_sshiftRight, BitVec.getLsbD_sshiftRight,
    frame_msb acc hn hn']
  obtain h | h := Nat.lt_or_ge i n.toNat
  · have hframe : Config.SFRAME_W - n.toNat + i < 32 := by simp only [Config.SFRAME_W]; omega
    simp [h, hi, hframe, show i < 32 by omega]
  · have hout : ¬ Config.SFRAME_W - n.toNat + i < 32 := by simp only [Config.SFRAME_W]; omega
    simp +contextual [hi, hout, Nat.not_lt.2 h]

/-- The top one of the `n` digits tells the upper half of their range. -/
theorem getLsbD_top {n : Nat} {u : Word} (hn : 1 ≤ n) (hu : u.toNat < 2 ^ n) :
    u.getLsbD (n - 1) = !decide (u.toNat < 2 ^ (n - 1)) := by
  have hpow : 2 ^ n = 2 ^ (n - 1) * 2 := by rw [← pow_succ, Nat.sub_add_cancel hn]
  have hlt : u.toNat / 2 ^ (n - 1) < 2 := Nat.div_lt_of_lt_mul (hpow ▸ hu)
  have hzero : u.toNat / 2 ^ (n - 1) = 0 ↔ u.toNat < 2 ^ (n - 1) := Nat.div_eq_zero_iff_lt (Nat.two_pow_pos _)
  rw [BitVec.getLsbD, Nat.testBit_eq_decide_div_mod_eq, Nat.mod_eq_of_lt hlt, ← decide_not, decide_eq_decide, ← hzero]
  generalize u.toNat / 2 ^ (n - 1) = q at hlt ⊢
  omega

/-- The two's complement value in the spelling of R111. -/
theorem signedResult_toInt_eq_sub {n : Count} {u : Word} (hn : 1 ≤ n.toNat) (hn' : n.toNat ≤ 32)
    (hu : u.toNat < 2 ^ n.toNat) :
    (signedResult n u).toInt = (u.toNat : Int) - 2 ^ n.toNat * (u.getLsbD (n.toNat - 1)).toNat := by
  rw [signedResult_toInt hn hn' hu, getLsbD_top hn hu]
  split_ifs with h <;> simp [h]

theorem toNat_eq_toInt_emod (d : Word) : (d.toNat : Int) = d.toInt % 2 ^ 64 := by
  have h := d.isLt
  rw [BitVec.toInt_eq_toNat_cond]
  split <;> omega

/-- Settles O18: the bits through the two shifts, and the value as the two's complement value modulo `2^64`. -/
theorem signExtensionIsTheMux : Obligations.SignExtensionIsTheMux := by
  intro n u hn hn' hu
  exact ⟨fun i hi => signedResult_getLsbD u hn hn' hi,
    by rw [toNat_eq_toInt_emod, signedResult_toInt_eq_sub hn hn' hu]⟩

/-! The read (R110). -/

/-- Settles O16: the closed form of the reads, with the sign-extended `ACC` as the result. -/
theorem readSignedClosedForm : Obligations.ReadSignedClosedForm := by
  intro s n bs rest hinv hn hn' hs
  obtain ⟨rb, acc, he, ha, hb, -⟩ := exec_read_supplied hinv ((readSigned_wf_iff n).2 ⟨hn, hn'⟩) rfl hs
  have hv : acc.toNat < 2 ^ n.toNat := ha ▸ readValue_lt n.toNat (suppliedBytes_length hs)
  obtain ⟨hlo, hhi⟩ := signedResult_placed acc hn hn'
  exact ⟨rb, acc, 0, signedResult n acc, he, ha ▸ signedResult_toInt hn hn' hv, hlo, hhi, hb (by omega)⟩

/-- Two ends of one read differ at most in the data; where it ended with `OK`, the data are the two results that the
reads make of one `ACC`. -/
theorem endRead_results (f g : Word → Word) (p : Progress) (hbusy : ∀ t, p = .waiting t → t.phase = .busy) :
    ∃ d, endRead g p = { endRead f p with rspData := d } ∧
      ((endRead f p).phase = .resp → (endRead f p).rspStatus = .ok →
        ∃ acc, (endRead f p).rspData = f acc ∧ d = g acc) := by
  cases p with
  | go t => exact ⟨g t.acc, rfl, fun _ _ => ⟨t.acc, rfl, rfl⟩⟩
  | failed t => exact ⟨_, rfl, fun _ hok => nomatch hok⟩
  | waiting t => exact ⟨_, rfl, fun hp _ => nomatch (hbusy t rfl).symm.trans hp⟩

/-- Settles O17: the two reads run one loop, however it ends, and differ in what they make of `ACC`. -/
theorem readSignedHasTheStateEffectOfReadUnsigned : Obligations.ReadSignedHasTheStateEffectOfReadUnsigned := by
  intro s n hn hn'
  have hu : (Instr.readUnsigned n).wf = true := (readUnsigned_wf_iff n).2 (by omega)
  have hw : (Instr.readSigned n).wf = true := (readSigned_wf_iff n).2 ⟨hn, hn'⟩
  have hbusy : ∀ t, readLoop n.toNat (beginRead n s) = .waiting t → t.phase = .busy := fun t ht =>
    (ht ▸ readLoop_frame n.toNat (beginRead n s)).phase
  obtain ⟨d, hd, hdata⟩ := endRead_results unsignedResult (signedResult n) _ hbusy
  refine ⟨_, d, exec_read hu rfl s, (exec_read hw rfl s).trans (congrArg _ hd), fun hp hok i hi => ?_⟩
  obtain ⟨acc, hf, rfl⟩ := hdata hp hok
  rw [signedResult_getLsbD acc hn hn' hi]
  exact hf ▸ rfl

end Sys2Proof.Machine

/-! PROOFS. `ALIGN` (43_align.md): the length it leaves (R120), its laws, and its effect on `AT_END` (R121). -/

namespace Sys2Proof.Machine

/-! The length that `ALIGN` leaves (R120). -/

theorem alignedLen_toNat (r : ResidueLen) : (alignedLen r).toNat = r.toNat - r.toNat % 8 :=
  BitVec.toNat_sub_of_le (BitVec.le_def.2 (Nat.mod_le _ _))

theorem alignedLen_mod_eight (r : ResidueLen) : (alignedLen r).toNat % 8 = 0 := by
  rw [alignedLen_toNat]; omega

theorem alignedLen_alignedLen (r : ResidueLen) : alignedLen (alignedLen r) = alignedLen r := by
  apply BitVec.eq_of_toNat_eq
  rw [alignedLen_toNat, alignedLen_mod_eight, Nat.sub_zero]

/-- Settles O7: the length and the response are the only updates, and the opcode of `ALIGN` takes no count. -/
theorem alignDiscardsTheResidue : Obligations.AlignDiscardsTheResidue := by
  refine ⟨fun s => ⟨alignedLen s.rlen, exec_align s, alignedLen_toNat _, fun h7 => ?_, fun h8 => ?_⟩, rfl,
    fun n hn => decode_of_count_ne_zero (i := .align) (.inr (.inr (.inl rfl))) hn⟩
  · rw [alignedLen_of_le_seven h7]; rfl
  · rw [alignedLen_toNat, h8]

/-! The laws of `ALIGN` (R121). -/

/-- Idempotence, in every state. -/
theorem exec_align_again {s t : State} (h : exec .align s = .next t) : exec .align t = .next t := by
  rw [exec_align] at h
  cases h
  rw [exec_align]
  simp [respond, alignedLen_alignedLen]

/-- At a boundary all residue bits go. -/
theorem exec_align_of_boundary {s : State} (h : ResidueInv s) :
    exec .align s = .next (respond 0 { s with rlen := 0 }) := by
  rw [exec_align, alignedLen_of_le_seven h.1]

theorem atEndResult_eq_one_iff (r : ResidueLen) (b : Bool) : atEndResult r b = 1 ↔ r = 0 ∧ b = true :=
  Ne.ite_eq_left_iff (by decide)

theorem atEndResult_eq_zero_iff (r : ResidueLen) (b : Bool) : atEndResult r b = 0 ↔ ¬ (r = 0 ∧ b = true) :=
  Ne.ite_eq_right_iff (by decide)

/-- Settles O8: the next state is `s` with an empty residue and the response. -/
theorem alignLaws : Obligations.AlignLaws := by
  intro s hinv
  have hex := exec_align_of_boundary hinv
  have hpos : (respond 0 { s with rlen := 0 }).pos = 8 * (s.nfetch : Int) := Int.sub_zero _
  refine ⟨_, hex, exec_align_again hex, rfl, ?_, ?_, rfl, rfl, fun h0 => ?_, fun h1 => ?_, ?_⟩
  · rw [hpos, State.pos, Int.sub_add_cancel]
  · rw [hpos, Int.mul_emod_right]
  · rw [← (rlen_eq_zero_iff s).2 h0]; rfl
  · exact (atEndResult_eq_one_iff _ _).2 ⟨rfl, ((atEndResult_eq_one_iff _ _).1 h1).2⟩
  · rw [atEndResult_eq_zero_iff, atEndResult_eq_one_iff, rlen_eq_zero_iff]
    exact ⟨fun ⟨hf, _, he⟩ => ⟨Nat.one_le_iff_ne_zero.2 fun h0 => hf ⟨h0, he⟩, he⟩,
      fun ⟨hr, he⟩ => ⟨fun h => by omega, rfl, he⟩⟩

end Sys2Proof.Machine

/-! PROOFS. `CLZ` (44_clz.md): the scan of R130 by the place of the highest set bit, and the narrower width of R131. -/

namespace Sys2Proof.Machine

/-! The scan (R130). -/

/-- The scan counts every zero bit that it passes. -/
theorem leadingZerosBelow_add {W : Nat} {v : BitVec W} {i k : Nat}
    (h : ∀ q, i ≤ q → q < i + k → v.getLsbD q = false) :
    leadingZerosBelow v (i + k) = leadingZerosBelow v i + k := by
  induction k with
  | zero => rfl
  | succ k ih =>
    have hbit : v.getLsbD (i + k) = false := h _ (Nat.le_add_right i k) (Nat.lt_succ_self _)
    have hrest := ih fun q hi hq => h q hi (Nat.lt_succ_of_lt hq)
    rw [← Nat.add_assoc, leadingZerosBelow, hbit, if_neg Bool.false_ne_true, hrest, Nat.add_assoc]

/-- The scan stops at a set bit. -/
theorem leadingZerosBelow_succ_of_set {W : Nat} {v : BitVec W} {p : Nat} (h : v.getLsbD p = true) :
    leadingZerosBelow v (p + 1) = 0 := by
  rw [leadingZerosBelow, if_pos h]

/-- The scan depends on the bits it passes, not on the width of the value. -/
theorem leadingZerosBelow_congr {V W : Nat} {v : BitVec V} {w : BitVec W} {k : Nat}
    (h : ∀ q, q < k → v.getLsbD q = w.getLsbD q) : leadingZerosBelow v k = leadingZerosBelow w k := by
  induction k with
  | zero => rfl
  | succ k ih =>
    rw [leadingZerosBelow, leadingZerosBelow, h k (Nat.lt_succ_self k), ih fun q hq => h q (Nat.lt_succ_of_lt hq)]

/-! The count (R130). -/

theorem leadingZeros_eq_add {W i : Nat} {v : BitVec W} (hi : i ≤ W)
    (h : ∀ q, i ≤ q → q < W → v.getLsbD q = false) :
    leadingZeros v = leadingZerosBelow v i + (W - i) := by
  obtain ⟨k, rfl⟩ := Nat.exists_eq_add_of_le hi
  rw [Nat.add_sub_cancel_left]
  exact leadingZerosBelow_add h

theorem leadingZeros_zero (W : Nat) : leadingZeros (0 : BitVec W) = W :=
  (leadingZeros_eq_add (Nat.zero_le W) fun _ _ _ => BitVec.getLsbD_zero).trans (Nat.zero_add W)

theorem leadingZeros_of_highest {W p : Nat} {v : BitVec W} (hp : p < W) (hset : v.getLsbD p = true)
    (hzero : ∀ q, p < q → q < W → v.getLsbD q = false) : leadingZeros v = W - 1 - p := by
  rw [leadingZeros_eq_add hp hzero, leadingZerosBelow_succ_of_set hset]
  omega

/-- Settles O9: the count is `leadingZeros` of the latched operand, the response is the only update, and the opcode of
`CLZ` takes no count. -/
theorem clzCountsLeadingZeros : Obligations.ClzCountsLeadingZeros := by
  refine ⟨fun s => ⟨leadingZeros s.cmdOperand, exec_clz s, leadingZerosBelow_le s.cmdOperand 64, fun h0 => ?_,
    fun p => leadingZeros_of_highest⟩, rfl, fun n hn =>
      decode_of_count_ne_zero (i := .clz) (.inr (.inr (.inr rfl))) hn⟩
  rw [h0]
  exact leadingZeros_zero 64

/-! The narrower width (R131). -/

/-- Truncation to a width that holds the value leaves the scan of its bits as it is. -/
theorem leadingZeros_setWidth {V W : Nat} (v : BitVec V) :
    leadingZeros (v.setWidth W) = leadingZerosBelow v W :=
  leadingZerosBelow_congr fun q hq => by rw [BitVec.getLsbD_setWidth, decide_eq_true hq, Bool.true_and]

/-- Settles O10: the wide scan first passes the `64 - W` bits above the value, then goes on as the narrow one. -/
theorem clzOfNarrowerWidth : Obligations.ClzOfNarrowerWidth := by
  intro W x _ hW hx
  have hscan : leadingZeros x = leadingZerosBelow x W + (64 - W) :=
    leadingZeros_eq_add hW fun q hq _ =>
      Nat.testBit_lt_two_pow (hx.trans_le (Nat.pow_le_pow_right Nat.two_pos hq))
  rw [leadingZeros_setWidth, hscan]
  exact ⟨(Nat.add_sub_cancel ..).symm, Nat.le_add_left ..⟩

end Sys2Proof.Machine

/-! PROOFS. Errors (60_exceptions.md): the answers to counts out of range and to illegal words (R142, R143, R146), what
no command but one reads (R144, 30_encoding.md R61), and that there is always a next state (R140, R148). -/

namespace Sys2Proof.Machine

/-! The errors decided before anything else happens (R142, R143). -/

/-- Settles O19: a refused count writes its response. -/
theorem outOfRangeCountChangesNothing : Obligations.OutOfRangeCountChangesNothing :=
  fun _ s hw => ⟨_, exec_of_not_wf hw s⟩

theorem decode_of_reserved {w : CmdWord} (h : opField w = 6 ∨ opField w = 7) :
    decode w = .illegal .reservedOpcode := by
  obtain h | h := h <;> rw [decode, h] <;> rfl

theorem decode_of_opField_of_count_ne_zero {w : CmdWord} {i : Instr} (hi : TakesNoCount i) (hop : opField w = i.opCode)
    (hn : countField w ≠ 0) : decode w = .illegal .countNotZero := by
  rw [← opField_append_countField w, hop]
  exact decode_of_count_ne_zero hi hn

theorem decode_readUnsigned {w : CmdWord} (h : opField w = 1) :
    decode w = .command (.readUnsigned (countField w)) := by
  rw [decode, h]; rfl

theorem decode_readSigned {w : CmdWord} (h : opField w = 3) :
    decode w = .command (.readSigned (countField w)) := by
  rw [decode, h]; rfl

/-- The words of R142 are illegal. -/
theorem decode_illegal {w : CmdWord}
    (h : (opField w = 6 ∨ opField w = 7) ∨
      ((opField w = 0 ∨ opField w = 2 ∨ opField w = 4 ∨ opField w = 5) ∧ countField w ≠ 0)) :
    ∃ why, decode w = .illegal why := by
  obtain hop | ⟨hop | hop | hop | hop, hn⟩ := h
  · exact ⟨_, decode_of_reserved hop⟩
  · exact ⟨_, decode_of_opField_of_count_ne_zero (i := .atEnd) (.inl rfl) hop hn⟩
  · exact ⟨_, decode_of_opField_of_count_ne_zero (i := .readByte) (.inr (.inl rfl)) hop hn⟩
  · exact ⟨_, decode_of_opField_of_count_ne_zero (i := .align) (.inr (.inr (.inl rfl))) hop hn⟩
  · exact ⟨_, decode_of_opField_of_count_ne_zero (i := .clz) (.inr (.inr (.inr rfl))) hop hn⟩

/-- The words of R143 are reads that are refused for their count. -/
theorem decode_countOutOfRange {w : CmdWord}
    (h : (opField w = 1 ∧ 64 < (countField w).toNat) ∨
      (opField w = 3 ∧ ((countField w).toNat = 0 ∨ 32 < (countField w).toNat))) :
    ∃ i, decode w = .command i ∧ i.wf = false := by
  obtain ⟨hop, hn⟩ | ⟨hop, hn⟩ := h
  · refine ⟨_, decode_readUnsigned hop, Bool.eq_false_iff.2 fun hw => ?_⟩
    rw [readUnsigned_wf_iff] at hw
    omega
  · refine ⟨_, decode_readSigned hop, Bool.eq_false_iff.2 fun hw => ?_⟩
    rw [readSigned_wf_iff] at hw
    omega

/-- An illegal word that is offered in `IDLE` is latched and answered on its edge (30_encoding.md R66). -/
theorem step_of_illegal {s : State} {e : PortIn} {es : List PortIn} {why : Illegal} (hin : s.inputs = e :: es)
    (hr : e.rst = false) (hv : e.cmdValid = true) (hp : s.phase = .idle) (hreset : s.wasReset = true)
    (hd : decode e.cmdWord = .illegal why) :
    step s = .next (raise .errIllegal (accept e { s with inputs := es })) := by
  have he := edge_of_cons hin
  rw [step_of_idle_offer (he ▸ hr) hp (he ▸ hv), acceptCommand, pastEdge_wasReset, if_pos hreset, he,
    pastEdge_of_cons hin]
  exact runCommand_illegal hd

/-- Settles O32: the word is illegal by its two fields, and the answer is the same at either level on the edge. -/
theorem illegalCommandIsAnsweredErrIllegal : Obligations.IllegalCommandIsAnsweredErrIllegal := by
  intro s e es hin hr hv hp hreset hw
  obtain ⟨why, hd⟩ := decode_illegal hw
  exact ⟨_, step_of_illegal hin hr hv hp hreset hd, fun b =>
    step_of_illegal (s := { s with inputs := { e with srcExhausted := b } :: es }) rfl hr hv hp hreset hd⟩

/-- Settles O33: the step runs the decoded read, which is refused for its count. -/
theorem countOutOfRangeIsAnsweredErrCount : Obligations.CountOutOfRangeIsAnsweredErrCount := by
  intro s e es hin hr hv hp hreset hw
  obtain ⟨i, hd, hwf⟩ := decode_countOutOfRange hw
  exact ⟨_, (stepRunsTheDecodedCommand s e es i hin hr hv hp hreset hd).trans (exec_of_not_wf hwf _)⟩

/-! A next state, always (R140, R148). -/

theorem exec_next (i : Instr) (s : State) : ∃ t, exec i s = .next t := by
  obtain hw | ⟨n, hw, hc⟩ | rfl | rfl | rfl := instr_cases i
  · exact ⟨_, exec_of_not_wf hw s⟩
  · exact ⟨_, exec_read hw hc s⟩
  · exact ⟨_, exec_atEnd s⟩
  · exact ⟨_, exec_align s⟩
  · exact ⟨_, exec_clz s⟩

/-- Settles O29: only a read can be left busy. -/
theorem everyCommandAnswersANextState : Obligations.EveryCommandAnswersANextState := by
  intro i s
  obtain ⟨t, ht⟩ := exec_next i s
  have hphase := exec_phase ht
  refine ⟨t, ht, hphase.symm, fun hc => hphase.resolve_left fun hbusy => ?_⟩
  obtain ⟨n, -, hn⟩ := exec_busy ht hbusy
  exact nomatch hc.symm.trans hn

/-- A command has a next state, which is reset if it was. -/
theorem exec_keeps_wasReset (i : Instr) (s : State) : ∃ t, exec i s = .next t ∧ t.wasReset = s.wasReset := by
  obtain ⟨t, ht⟩ := exec_next i s
  exact ⟨t, ht, (exec_frame ht).wasReset⟩

theorem runCommand_keeps_wasReset (s : State) : ∃ t, runCommand s = .next t ∧ t.wasReset = s.wasReset := by
  cases hd : decode s.cmdWord with
  | command i => rw [runCommand_command hd]; exact exec_keeps_wasReset i s
  | illegal why => exact ⟨_, runCommand_illegal hd, rfl⟩

theorem resumeCommand_keeps_wasReset (s : State) :
    ∃ t, resumeCommand s = .next t ∧ t.wasReset = s.wasReset := by
  cases hd : decode s.cmdWord with
  | illegal why => exact ⟨_, resumeCommand_illegal hd, rfl⟩
  | command i =>
    cases hc : i.readCount with
    | none => rw [resumeCommand_direct hd hc]; exact exec_keeps_wasReset i s
    | some n => exact ⟨_, resumeCommand_read hd hc, (endRead_frame _ (readLoop_frame _ _)).wasReset⟩

/-- Settles O44: event by event of the interface; a command is refused only before the first reset. -/
theorem aResetMachineNeverStops : Obligations.AResetMachineNeverStops := by
  intro s h
  obtain ⟨-, hs⟩ | ⟨-, -, -, hs⟩ | ⟨-, -, -, hs⟩ | ⟨-, -, hs⟩ | ⟨-, -, -, hs⟩ | ⟨-, -, -, hs⟩ := step_cases s
  · exact ⟨_, hs, rfl⟩
  · obtain ⟨t, ht, hreset⟩ := runCommand_keeps_wasReset (accept s.edge (pastEdge s))
    rw [acceptCommand, pastEdge_wasReset, if_pos h] at hs
    exact ⟨t, hs.trans ht, hreset.trans h⟩
  · exact ⟨_, hs, h⟩
  · obtain ⟨t, ht, hreset⟩ := resumeCommand_keeps_wasReset s
    exact ⟨t, hs.trans ht, hreset.trans h⟩
  · exact ⟨_, hs, h⟩
  · exact ⟨_, hs, h⟩

/-! What no command but one reads (R144, 30_encoding.md R61): changing the level of `src_exhausted` and the operand
commutes with everything a command does, from the fetch to the response. -/

/-- The same state with the level of `src_exhausted` and the operand changed. -/
def mapUnread (level : Bool → Bool) (operand : Word → Word) (s : State) : State :=
  { s with srcExhausted := level s.srcExhausted, cmdOperand := operand s.cmdOperand }

/-- The same end of a part of a read, with the state changed. -/
def Progress.map (u : State → State) : Progress → Progress
  | .go s => .go (u s)
  | .failed s => .failed (u s)
  | .waiting s => .waiting (u s)

section Unread

variable {level : Bool → Bool} {operand : Word → Word}

@[simp] theorem mapUnread_rlen (s : State) : (mapUnread level operand s).rlen = s.rlen := rfl
@[simp] theorem mapUnread_rem (s : State) : (mapUnread level operand s).rem = s.rem := rfl
@[simp] theorem mapUnread_inputs (s : State) : (mapUnread level operand s).inputs = s.inputs := rfl

theorem srcFetch_mapUnread (s : State) :
    srcFetch (mapUnread level operand s) = (srcFetch s).map (mapUnread level operand) := by
  rw [srcFetch, srcFetch, mapUnread_inputs]
  cases awaitReply s.inputs with
  | silent rest => rfl
  | reply r rest => cases r <;> rfl

theorem refill_mapUnread (s : State) :
    refill (mapUnread level operand s) = (refill s).map (mapUnread level operand) := by
  rw [refill, refill, mapUnread_rlen]
  split
  · exact srcFetch_mapUnread s
  · rfl

theorem takeChunk_mapUnread (s : State) :
    takeChunk (mapUnread level operand s) = mapUnread level operand (takeChunk s) := rfl

theorem readLoop_mapUnread (f : Nat) (s : State) :
    readLoop f (mapUnread level operand s) = (readLoop f s).map (mapUnread level operand) := by
  induction f generalizing s with
  | zero => rfl
  | succ f ih =>
    rw [readLoop, readLoop, mapUnread_rem, refill_mapUnread]
    split
    · rfl
    · cases refill s with
      | go t => exact (congrArg (readLoop f) (takeChunk_mapUnread t)).trans (ih _)
      | failed | waiting => rfl

theorem endRead_mapUnread (result : Word → Word) (p : Progress) :
    endRead result (p.map (mapUnread level operand)) = mapUnread level operand (endRead result p) := by
  cases p <;> rfl

theorem readBody_mapUnread (result : Word → Word) (n : Count) (s : State) :
    readBody result n (mapUnread level operand s) = mapUnread level operand (readBody result n s) := by
  rw [readBody, readBody, ← endRead_mapUnread, ← readLoop_mapUnread]
  rfl

/-- `AT_END` alone reads the level, and `CLZ` alone the operand. -/
theorem exec_mapUnread {i : Instr} (s : State) (hlevel : i = .atEnd → level = id)
    (hoperand : i = .clz → operand = id) :
    exec i (mapUnread level operand s) = mapNext (mapUnread level operand) (exec i s) := by
  obtain hw | ⟨n, hw, hc⟩ | rfl | rfl | rfl := instr_cases i
  · rw [exec_of_not_wf hw, exec_of_not_wf hw]; rfl
  · rw [exec_read hw hc, exec_read hw hc, readBody_mapUnread]; rfl
  · rw [hlevel rfl]; rfl
  · rfl
  · rw [hoperand rfl]; rfl

end Unread

/-- Settles O28: the level is set with the operand left as it is, and the operand with the level left as it is. -/
theorem commandsIgnoreWhatTheyDoNotRead : Obligations.CommandsIgnoreWhatTheyDoNotRead :=
  ⟨fun _ s b hi => exec_mapUnread (level := fun _ => b) (operand := id) s (fun h => absurd h hi) fun _ => rfl,
    fun _ s v hi => exec_mapUnread (level := id) (operand := fun _ => v) s (fun _ => rfl) fun h => absurd h hi⟩

end Sys2Proof.Machine

/-! PROOFS. Reset and waiting (70_reset_and_hazards.md): a command before the first reset (R170), a reset edge with a
command in flight (R172), a source that does not answer (R180) and one that answers every request (R183). -/

namespace Sys2Proof.Machine

/-! Reset (R170, R172). -/

/-- Settles O36: the offer reaches acceptance, which asks for a reset edge. -/
theorem commandBeforeResetIsRefused : Obligations.CommandBeforeResetIsRefused := by
  intro s hp hreset hr hv
  rw [step_of_idle_offer hr hp hv, acceptCommand, pastEdge_wasReset, hreset]
  rfl

/-- A byte that is handed over on the reset edge is counted (R172). -/
theorem takenAtReset_of_byte {e : PortIn} {s : State} (hq : s.srcReq = true) (ha : e.srcAck = true)
    (hf : e.srcFail = false) : takenAtReset e s = s.srcTaken + 1 := by
  simp [takenAtReset, hq, ha, hf]

/-- Without a request, an answer or a byte in it nothing is counted (R172). -/
theorem takenAtReset_of_no_byte {e : PortIn} {s : State}
    (h : s.srcReq = false ∨ e.srcAck = false ∨ e.srcFail = true) : takenAtReset e s = s.srcTaken := by
  obtain hq | ha | hf := h
  · exact takenAtReset_of_no_request hq
  · simp [takenAtReset, ha]
  · simp [takenAtReset, hf]

/-- Settles O41: in every phase the edge gives `resetEdge`'s state, whose count is `takenAtReset`. -/
theorem resetAbandonsTheCommandInFlight : Obligations.ResetAbandonsTheCommandInFlight := fun s hr _ =>
  ⟨resetEdge s.edge (pastEdge s), step_of_rst hr, rfl, rfl, srcReq_of_phase_ne_busy (by simp), rfl, rfl,
    takenAtReset_of_byte (s := pastEdge s), takenAtReset_of_no_byte (s := pastEdge s)⟩

/-! A source that does not answer (R180). -/

/-- A request is held by a read that stands before a fetch (20_memory.md R44). -/
theorem waiting_of_srcReq {s : State} (h : s.srcReq = true) :
    s.phase = .busy ∧ (∃ i n, decode s.cmdWord = .command i ∧ i.readCount = some n) ∧ s.rlen.toNat = 0 ∧
      1 ≤ s.rem.toNat := by
  simp only [State.srcReq, Bool.and_eq_true, decide_eq_true_eq] at h
  obtain ⟨⟨⟨hp, hk⟩, hr⟩, hm⟩ := h
  refine ⟨hp, ?_, hr, hm⟩
  cases hd : decode s.cmdWord with
  | illegal why => rw [readCountOf, hd] at hk; cases hk
  | command i =>
    rw [readCountOf, hd] at hk
    obtain ⟨n, hc⟩ := Option.isSome_iff_exists.1 hk
    exact ⟨i, n, rfl, hc⟩

/-- Edges with neither a reset nor an answer all pass. -/
theorem awaitReply_of_no_answer {es : List PortIn} (h : ∀ e ∈ es, e.rst = false ∧ e.srcAck = false) :
    awaitReply es = .silent [] := by
  induction es with
  | nil => rfl
  | cons e es ih =>
    obtain ⟨⟨hr, ha⟩, hes⟩ := List.forall_mem_cons.1 h
    rw [awaitReply, hr, ha]
    exact ih hes

/-- A read that stands before a fetch which is not answered still stands there. -/
theorem continueRead_silent {s : State} {es : List PortIn} (result : Word → Word) (hm : 1 ≤ s.rem.toNat)
    (hr : s.rlen.toNat = 0) (he : awaitReply s.inputs = .silent es) : continueRead result s = setInputs es s := by
  obtain ⟨f, hf⟩ : ∃ f, s.rem.toNat = f + 1 := ⟨s.rem.toNat - 1, by omega⟩
  rw [continueRead, hf, readLoop_silent f hm hr he]
  rfl

/-- Settles O37: the request is a read's, and going on with it over no answer only passes the edges. -/
theorem busyCoreWaitsWithoutBound : Obligations.BusyCoreWaitsWithoutBound := by
  intro s hq hes
  obtain ⟨hp, ⟨i, n, hd, hc⟩, hr, hm⟩ := waiting_of_srcReq hq
  have hhead : ∀ e ∈ s.inputs.head?, e.rst = false := fun e he => (hes e (List.mem_of_mem_head? he)).1
  refine ⟨?_, by simp [State.cmdReady, hp], by simp [State.rspValid, hp], hp⟩
  rw [step_continueRead hp hd hc hhead, continueRead_silent _ hm hr (awaitReply_of_no_answer hes)]
  rfl

/-- Settles O21: the read comes to stand before the unanswered fetch, with what it has taken in `ACC`. -/
theorem unansweredFetchKeepsTheCoreBusy : Obligations.UnansweredFetchKeepsTheCoreBusy := by
  intro i n s j bs rest rest' hinv hd hc hw hj hs he
  obtain ⟨rb, acc, t, rfl, ht, hm, ha⟩ := exec_read_waits hinv hw hc hj hs he
  have hacc : acc = BitVec.ofNat 64 (readSpan s bs) := by rw [← ha, BitVec.ofNat_toNat, BitVec.setWidth_eq]
  subst hacc
  exact ⟨rb, _, rfl, ht, srcReq_of_waiting rfl hd hc rfl hm, rfl, rfl⟩

/-! A source that answers every request (R183): a read makes at most eight of them (R95). -/

/-- The first of several requests is answered, and the others after it. -/
theorem answersRequests_succ {k : Nat} {es : List PortIn} (h : answersRequests (k + 1) es = true) :
    ∃ r rest, awaitReply es = .reply r rest ∧ answersRequests k rest = true := by
  rw [answersRequests] at h
  cases he : awaitReply es with
  | silent rest => rw [he] at h; cases h
  | reply r rest => rw [he] at h; exact ⟨r, rest, rfl, h⟩

theorem answersRequests_of_le : ∀ {j k : Nat} {es : List PortIn}, j ≤ k → answersRequests k es = true →
    answersRequests j es = true
  | 0, _, _, _, _ => rfl
  | j + 1, 0, _, hle, _ => absurd hle (Nat.not_succ_le_zero j)
  | j + 1, k + 1, es, hle, h => by
    obtain ⟨r, rest, he, hrest⟩ := answersRequests_succ h
    rw [answersRequests, he]
    exact answersRequests_of_le (Nat.le_of_succ_le_succ hle) hrest

/-- An iteration that takes from the residue leaves the fetches to come. -/
theorem readFetches_takeChunk (s : State) :
    readFetches (takeChunk s).rlen.toNat (takeChunk s).rem.toNat = readFetches s.rlen.toNat s.rem.toNat := by
  rw [takeChunk_rlen_toNat, takeChunk_rem_toNat, readFetches_chunk (chunkSize_le_rlen s)]

/-- A loop whose fetches to come are all answered does not wait, in any state. -/
theorem readLoop_answered : ∀ (f : Nat) (s u : State),
    answersRequests (readFetches s.rlen.toNat s.rem.toNat) s.inputs = true → readLoop f s ≠ .waiting u := by
  intro f
  induction f with
  | zero => exact fun _ _ _ => nofun
  | succ f ih =>
    intro s u h
    obtain hm | hm := Nat.eq_zero_or_pos s.rem.toNat
    · rw [readLoop_done _ hm]; nofun
    obtain hr | hr := Nat.eq_zero_or_pos s.rlen.toNat
    · rw [hr, readFetches_byte hm] at h
      obtain ⟨r, rest, he, hrest⟩ := answersRequests_succ h
      cases r with
      | fail => rw [readLoop_fail f hm hr he]; nofun
      | byte b =>
        rw [readLoop_byte f hm hr he]
        exact ih _ u ((congrArg (answersRequests · rest) (readFetches_takeChunk (takeByte b rest s))).trans hrest)
    · rw [readLoop_residue f hm hr]
      exact ih _ u ((congrArg (answersRequests · s.inputs) (readFetches_takeChunk s)).trans h)

/-- Settles O30: a command that is left busy would be a legal read whose loop waits. -/
theorem everyCommandIsAnsweredWhenTheSourceAnswers : Obligations.EveryCommandIsAnsweredWhenTheSourceAnswers := by
  intro i s h
  obtain ⟨t, ht⟩ := exec_next i s
  refine ⟨t, ht, (exec_phase ht).resolve_left fun hbusy => ?_⟩
  obtain ⟨n, hw, hc⟩ := exec_busy ht hbusy
  rw [exec_read hw hc] at ht
  cases ht
  have height := readFetches_le_eight s.rlen.toNat (readCount_le hw hc)
  exact readLoop_answered n.toNat (beginRead n s) _ (answersRequests_of_le height h) (endRead_busy hbusy)

end Sys2Proof.Machine
